-- ==== Sys2Proof/Word.lean ====
section
/-! DEFINITION. The plain data of the block's ports: bytes, identifiers, real numbers in the two number domains of
R12, CAN frames, and what the transport may answer. No operation on them stands here. -/

namespace Sys2Proof

/-- One payload byte (R40). -/
abbrev Byte := BitVec 8

/-- A motor identifier: 8 bits, unsigned (R8, R20). -/
abbrev MotorId := BitVec 8

/-- The arbitration identifier as it is handed to the transport: an unsigned 32-bit number (R8, R28, R44). -/
abbrev Identifier := BitVec 32

/-- The payload bytes of one frame, index 0 first (R9, R40). -/
abbrev Payload := List Byte

/-- An IEEE 754 binary64 value, held as its bit pattern, so that NaN, the infinities and `-0.0` are all
presentable (R12, R27). -/
abbrev Binary64 := BitVec 64

/-- The spec's `Real` (R12, R27): a value of one of the two number domains that the parameter ARITH chooses between.
The domain of an operand is the domain of the value presented (DESIGN CHOICE, safe, log entry 1). -/
inductive Number where
  /-- ARITH = binary64: any binary64 value, NaN and the infinities included. -/
  | binary64 (bits : Binary64)
  /-- ARITH = exact: a rational. -/
  | exact (q : Rat)
  deriving DecidableEq, Repr, Inhabited

/-- A duration in seconds, as the caller gives it: the block passes it on and computes nothing from it (R32; log
entry 17). -/
abbrev Duration := Number

/-- An error the transport reports. The block never looks inside it (R184); `code` only tells errors apart
(log entry 15). -/
structure TransportError where
  code : Nat
  deriving DecidableEq, Repr, Inhabited

/-- One frame as `send` takes it (R28): identifier, payload and the extended-format mark. The data length is the
payload's length (D11). -/
structure Frame where
  arbitrationId : Identifier
  payload : Payload
  extended : Bool
  deriving DecidableEq, Repr, Inhabited

/-- The transport's answer to `receive` (R30, R150, R156): nothing within the timeout, a frame's payload of any
length, or an error of the transport's own. The frame's identifier and format do not reach the block (R153). -/
inductive ReceiveAnswer where
  | absent
  | frame (payload : Payload)
  | failed (e : TransportError)
  deriving DecidableEq, Repr, Inhabited

/-- The transport's answer to `send` (R105, R184): accepted, or an error `e`, where `reachedBus` says whether the
frame reached the bus all the same (D19 admits both; log entry 13). -/
inductive SendAnswer where
  | accepted
  | failed (e : TransportError) (reachedBus : Bool)
  deriving DecidableEq, Repr, Inhabited

end Sys2Proof
end

