-- ==== Sys2Proof/Config.lean ====
section
/-! DEFINITION. What is fixed for a machine or left open to it: the number domain ARITH, the transport's default
timeout, and the transport's answers where State scripts none. The last three are free values: constants with no body.
The scale factors and bounds of R7 stand in Machine/Params.lean. -/

namespace Sys2Proof

/-- The number domains of R7 and R12. -/
inductive Arith where
  | binary64
  | exact
  deriving DecidableEq, Repr, Inhabited

/-- `ARITH`, decided `binary64` (R7, D1; log entry 2). It is the reset value of `State.arith`; the alternative `exact` is a state
whose `arith` is `.exact`. -/
def Config.arith : Arith := .binary64

/-- `RX_TIMEOUT` (R7, R32): how long the transport waits where readStatus is given no timeout. OPEN in the spec
("~0.1s"), so a free value (log entry 6). -/
opaque Config.rxTimeout : Duration

/-- The transport's answer to the `n`-th `receive` that State scripts no answer for: a free input of the
transaction (R150: a draw). -/
opaque Config.freeReceive : Nat → ReceiveAnswer

/-- The transport's answer to the `n`-th `send` that State scripts no answer for: a free input (R105, R184). -/
opaque Config.freeSend : Nat → SendAnswer

end Sys2Proof
end

