-- ==== Sys2Proof/Machine/Bytes.lean ====
section
/-! DEFINITION. The integer and byte-order primitives of R10 and R11, over mathematical integers and byte lists. -/

namespace Sys2Proof.Machine

/-- `trunc` of a rational: toward zero (R10). -/
def trunc (q : Rat) : Int := q.num.tdiv (q.den : Int)

/-- `tdiv`: integer division truncating toward zero (R10). -/
def tdiv (a b : Int) : Int := Int.tdiv a b

/-- `fits_sN` (R10), for `N` at least 1. -/
def fitsS (n : Nat) (v : Int) : Bool := decide (-(2 ^ (n - 1) : Int) ≤ v ∧ v ≤ 2 ^ (n - 1) - 1)

/-- `tc_N`: the N-bit two's-complement pattern `v mod 2^N` (R10, D16). -/
def tc (n : Nat) (v : Int) : BitVec n := BitVec.ofInt n v

/-- `sext_N`: a pattern read as two's complement (R10). -/
def sext {n : Nat} (w : BitVec n) : Int := w.toInt

/-- `zext_N` as an integer: a pattern read as unsigned (R10). -/
def zext {n : Nat} (w : BitVec n) : Int := (w.toNat : Int)

/-- The low `8k` bits of a number as `k` bytes, most significant byte first (R11). -/
def beBytesNat : Nat → Nat → Payload
  | 0, _ => []
  | k + 1, v => BitVec.ofNat 8 (v / 256 ^ k) :: beBytesNat k v

/-- `be_bytes_8` (R11). -/
def beBytes8 (w : BitVec 8) : Payload := beBytesNat 1 w.toNat

/-- `be_bytes_16` (R11). -/
def beBytes16 (w : BitVec 16) : Payload := beBytesNat 2 w.toNat

/-- `be_bytes_32` (R11). -/
def beBytes32 (w : BitVec 32) : Payload := beBytesNat 4 w.toNat

/-- `be_word` of a byte list of any length, as a number (R11). -/
def beWordNat : Payload → Nat
  | [] => 0
  | b :: bs => b.toNat * 256 ^ bs.length + beWordNat bs

/-- `MemRead(buf, off, n)` with the pattern's width named: `width = 8n` (R11). -/
def memRead (buf : Payload) (off n width : Nat) : BitVec width :=
  BitVec.ofNat width (beWordNat ((buf.drop off).take n))

/-- `MemWrite(buf, off, n, v)`: the buffer with bytes `off .. off+n-1` overwritten by the big-endian bytes of `v`
(R11). -/
def memWrite (buf : Payload) (off n : Nat) (v : Nat) : Payload :=
  buf.take off ++ beBytesNat n v ++ buf.drop (off + n)

/-- The product of two rationals, written over numerators and denominators so that it evaluates. -/
def ratMul (a b : Rat) : Rat := mkRat (a.num * b.num) (a.den * b.den)

/-- `a ≤ b` on rationals, as a Bool that evaluates. -/
def ratLe (a b : Rat) : Bool := decide (a.num * (b.den : Int) ≤ b.num * (a.den : Int))

end Sys2Proof.Machine
end

