-- ==== Sys2Proof/Syntax.lean ====
section
/-! DEFINITION. The eight operations of the opcode table as one inductive, the ServoMode enumeration that is the
opcode of the seven encoder operations, and the requests a caller presents to the block. -/

namespace Sys2Proof

/-- The closed enumeration of command kinds (R14, R61), in tag order. -/
inductive ServoMode where
  | dutyCycle
  | currentLoop
  | currentBrake
  | velocityLoop
  | positionLoop
  | setOrigin
  | positionVelocityLoop
  deriving DecidableEq, Repr

/-- The codec operations (R2, R27, R71), one constructor per row of spec/opcode_table.json, each with its parameters
in the source's order. The transport's answer to readStatus is an input of the transaction and stands in State. -/
inductive Instr where
  /-- R110 -/
  | setDutyCycle (duty : Number)
  /-- R111 -/
  | setCurrent (current : Number)
  /-- R112 -/
  | setBrakeCurrent (current : Number)
  /-- R113 -/
  | setVelocity (rpm : Number)
  /-- R114 -/
  | setPosition (degrees : Number)
  /-- R115 -/
  | setOrigin (permanent : Bool)
  /-- R116 -/
  | setPositionVelocity (degrees : Number) (rpm : Int) (acceleration : Int)
  /-- R157 -/
  | readStatus (timeout : Option Duration)
  deriving DecidableEq, Repr

/-- The ServoMode of an encoder operation; readStatus has none (R2, R61). -/
def Instr.mode? : Instr → Option ServoMode
  | .setDutyCycle _ => some .dutyCycle
  | .setCurrent _ => some .currentLoop
  | .setBrakeCurrent _ => some .currentBrake
  | .setVelocity _ => some .velocityLoop
  | .setPosition _ => some .positionLoop
  | .setOrigin _ => some .setOrigin
  | .setPositionVelocity _ _ _ => some .positionVelocityLoop
  | .readStatus _ => none

/-- One transaction a caller presents (R214: the program is the caller's sequence of transactions). -/
inductive Request where
  /-- Construction `Codec(v)` (R26, R210). -/
  | construct (v : Int)
  /-- An operation with its parameters (R27, R71). -/
  | call (i : Instr)
  /-- An encoder operation given by its frame, the form 30_encoding.md calls the block's instruction word; the step
  decodes it and refuses an encoding outside the map (R69, D18). The model's own form of request (log entry 4). -/
  | encoded (f : Frame)
  deriving DecidableEq, Repr

end Sys2Proof
end

