-- ==== Sys2Proof/Machine/Identifier.lean ====
section
/-! DEFINITION. The arbitration identifier's layout and the mode-tag map (R60, R61, R63, R101). -/

namespace Sys2Proof.Machine

/-- The ServoMode tag, the opcode of an encoder operation (R61). -/
def tagOf : ServoMode → BitVec 8
  | .dutyCycle => 0
  | .currentLoop => 1
  | .currentBrake => 2
  | .velocityLoop => 3
  | .positionLoop => 4
  | .setOrigin => 5
  | .positionVelocityLoop => 6

/-- The ServoMode of a tag; tags 7 to 255 have none (R61, R69). -/
def modeOfTag (t : BitVec 8) : Option ServoMode :=
  match t.toNat with
  | 0 => some .dutyCycle
  | 1 => some .currentLoop
  | 2 => some .currentBrake
  | 3 => some .velocityLoop
  | 4 => some .positionLoop
  | 5 => some .setOrigin
  | 6 => some .positionVelocityLoop
  | _ => none

/-- The payload length of a ServoMode, in bytes (R61, R63). -/
def payloadLength : ServoMode → Nat
  | .dutyCycle => 4
  | .currentLoop => 4
  | .currentBrake => 4
  | .velocityLoop => 4
  | .positionLoop => 4
  | .setOrigin => 1
  | .positionVelocityLoop => 8

/-- The arbitration-identifier builder: `zext_32((t << 8) | m)` (R101). -/
def arbId (t : BitVec 8) (m : MotorId) : Identifier := (t.setWidth 32 <<< 8) ||| m.setWidth 32

/-- Identifier bits 31:29, outside the 29-bit field (R60). -/
def idOutside (id : Identifier) : Nat := id.toNat / 2 ^ 29

/-- Identifier bits 28:16 (R60). -/
def idUpper (id : Identifier) : Nat := id.toNat / 2 ^ 16 % 2 ^ 13

/-- Identifier bits 15:8, the mode tag (R60). -/
def idTag (id : Identifier) : BitVec 8 := BitVec.ofNat 8 (id.toNat / 2 ^ 8)

/-- Identifier bits 7:0, the motor identifier (R60). -/
def idMotor (id : Identifier) : MotorId := BitVec.ofNat 8 id.toNat

/-- The frame of a ServoMode and a payload for motor `m`: always extended format (R28, R60, R100). -/
def commandFrame (m : MotorId) (mode : ServoMode) (payload : Payload) : Frame :=
  { arbitrationId := arbId (tagOf mode) m, payload := payload, extended := true }

end Sys2Proof.Machine
end

