-- ==== Sys2Proof/Machine/Float.lean ====
section
/-! DEFINITION. IEEE 754 binary64 as R12 uses it: the value of a pattern, and multiplication rounded to nearest, ties
to even. Everything is integer arithmetic on sign, mantissa and exponent. -/

namespace Sys2Proof.Machine

/-- The numeric value of a `Real`: not a number, an infinity (with its sign), or a rational. `-0.0` and `0.0` have
the same value, as R12 compares them. -/
inductive Extended where
  | nan
  | inf (negative : Bool)
  | fin (q : Rat)
  deriving DecidableEq, Repr

namespace Float64

/-- The sign bit, bit 63. -/
def negative (w : Binary64) : Bool := decide (2 ^ 63 ≤ w.toNat)

/-- The biased exponent, bits 62:52. -/
def exponentField (w : Binary64) : Nat := w.toNat / 2 ^ 52 % 2048

/-- The fraction, bits 51:0. -/
def fraction (w : Binary64) : Nat := w.toNat % 2 ^ 52

/-- NaN: exponent all ones, fraction not zero. -/
def isNaN (w : Binary64) : Bool := exponentField w == 2047 && fraction w != 0

/-- An infinity: exponent all ones, fraction zero. -/
def isInf (w : Binary64) : Bool := exponentField w == 2047 && fraction w == 0

/-- The integer mantissa of a finite value, hidden bit included. -/
def mantissa (w : Binary64) : Nat :=
  if exponentField w = 0 then fraction w else 2 ^ 52 + fraction w

/-- The exponent of the mantissa's unit: a finite value is `± mantissa · 2^exponent`. -/
def exponent (w : Binary64) : Int := (max (exponentField w) 1 : Nat) - 1075

/-- `± m · 2^e` as a rational. -/
def dyadic (neg : Bool) (m : Nat) (e : Int) : Rat :=
  let n : Int := if neg then -(m : Int) else (m : Int)
  if m = 0 then 0
  else if 0 ≤ e then mkRat (n * 2 ^ e.toNat) 1 else mkRat n (2 ^ (-e).toNat)

/-- The value of a binary64 pattern (R12). -/
def value (w : Binary64) : Extended :=
  if isNaN w then .nan
  else if isInf w then .inf (negative w)
  else .fin (dyadic (negative w) (mantissa w) (exponent w))

/-- `m / 2^k` rounded to the nearest integer, a tie to the even one (R12). -/
def roundHalfEven (m k : Nat) : Nat :=
  let q := m / 2 ^ k
  let r := m % 2 ^ k
  if 2 ^ k < 2 * r ∨ (2 ^ k = 2 * r ∧ q % 2 = 1) then q + 1 else q

/-- The magnitude bits (62:0) of infinity. -/
def infinityBits : Nat := 2047 * 2 ^ 52

/-- The exponent of the unit in the last place at which `m · 2^e` is rounded: 53 significant bits, and never below
the subnormal unit `2^-1074`. -/
def unitExponent (m : Nat) (e : Int) : Int := max (e + (m.log2 : Int) - 52) (-1074)

/-- `m · 2^e` in units of its last place, rounded to nearest, ties to even. -/
def roundedUnits (m : Nat) (e : Int) : Nat :=
  let q := unitExponent m e
  if q ≤ e then m * 2 ^ (e - q).toNat else roundHalfEven m (q - e).toNat

/-- The magnitude bits (62:0) of the binary64 value nearest to `m · 2^e`. The hidden bit of the mantissa adds one to
the exponent field, so a rounding that carries into the next binade, or from subnormal to normal, needs no case of its
own, and a sum past the largest finite value is infinity. -/
def magnitudeBits (m : Nat) (e : Int) : Nat :=
  if m = 0 then 0
  else min ((unitExponent m e + 1074).toNat * 2 ^ 52 + roundedUnits m e) infinityBits

/-- A pattern from its sign and magnitude bits. -/
def pack (neg : Bool) (magnitude : Nat) : Binary64 :=
  BitVec.ofNat 64 ((if neg then 2 ^ 63 else 0) + magnitude)

/-- The binary64 value nearest to `± m · 2^e`. -/
def round (neg : Bool) (m : Nat) (e : Int) : Binary64 := pack neg (magnitudeBits m e)

/-- The NaN a multiplication answers. DESIGN CHOICE (safe, log entry 11): no operation of the block multiplies a NaN,
or an infinity by zero, so no result ever holds it. -/
def quietNaN : Binary64 := 0x7FF8000000000000#64

/-- The binary64 value nearest to an integer; exact for every integer of at most 53 bits (R154: a raw int16 converts
exactly). -/
def ofInt (n : Int) : Binary64 := round (decide (n < 0)) n.natAbs 0

/-- The binary64 product, rounded to nearest, ties to even (R12). -/
def mul (a b : Binary64) : Binary64 :=
  let neg := negative a ^^ negative b
  if isNaN a || isNaN b then quietNaN
  else if isInf a then (if isInf b || mantissa b != 0 then pack neg infinityBits else quietNaN)
  else if isInf b then (if mantissa a != 0 then pack neg infinityBits else quietNaN)
  else round neg (mantissa a * mantissa b) (exponent a + exponent b)

end Float64

end Sys2Proof.Machine
end

