-- ==== Sys2Proof/Machine/Params.lean ====
section
/-! DEFINITION. The named constants of R7: scale factors, divisor and bounds, with the source's values (D15). -/

namespace Sys2Proof.Machine

/-- A constant factor of `fmul`, in both number domains (R12; log entry 19). -/
structure Scale where
  float : Binary64
  exact : Rat
  deriving DecidableEq, Repr

/-- An integer factor; exact in binary64 (R12). -/
def Scale.ofNat (n : Nat) : Scale := { float := Float64.ofInt n, exact := mkRat n 1 }

/-- `DUTY_SCALE` -/
def dutyScale : Nat := 100000
/-- `CURRENT_SCALE`, of current and brake current -/
def currentScale : Nat := 1000
/-- `POS_SCALE`, of setPosition and setPositionVelocity -/
def posScale : Nat := 10000
/-- The scale of setVelocity: none (R102: "no scaling") -/
def velocityScale : Nat := 1
/-- `PV_DIV`, the divisor of rpm and acceleration in setPositionVelocity -/
def pvDiv : Int := 10
/-- `DUTY_MAX`, inclusive and symmetric -/
def dutyMax : Int := 1
/-- `POS_MAX`, degrees, inclusive and symmetric -/
def posMax : Int := 36000

/-- `ST_POS_SCALE` = 0.1: the binary64 value nearest to it (R12), and the exact decimal. -/
def stPosScale : Scale := { float := 0x3FB999999999999A#64, exact := mkRat 1 10 }
/-- `ST_SPEED_SCALE` = 10.0 -/
def stSpeedScale : Scale := Scale.ofNat 10
/-- `ST_CUR_SCALE` = 0.01: the binary64 value nearest to it (R12), and the exact decimal. -/
def stCurScale : Scale := { float := 0x3F847AE147AE147B#64, exact := mkRat 1 100 }

end Sys2Proof.Machine
end

