-- ==== Sys2Proof/WellFormed.lean ====
section
/-! DEFINITION. Three checks, none of which an operation needs in order to run: an operand lies in the number domain
ARITH; an operation is one that a command frame can carry; a frame is one of the map of 30_encoding.md. -/

namespace Sys2Proof

open Machine

/-- The value is of the number domain `a` (R12, R27). -/
def Number.inDomain (a : Arith) : Number → Bool
  | .binary64 _ => a == .binary64
  | .exact _ => a == .exact

/-- Every Real operand is of the number domain `a` (R27). -/
def Instr.inDomain (a : Arith) : Instr → Bool
  | .setDutyCycle x => x.inDomain a
  | .setCurrent x => x.inDomain a
  | .setBrakeCurrent x => x.inDomain a
  | .setVelocity x => x.inDomain a
  | .setPosition x => x.inDomain a
  | .setOrigin _ => true
  | .setPositionVelocity x _ _ => x.inDomain a
  | .readStatus _ => true

/-- The value is exactly a field of a P4 or P8 payload divided by its scale: a rational whose product with the scale
is an integer of 32 signed bits (R64, R66). -/
def Number.isField32 (scale : Nat) : Number → Bool
  | .binary64 _ => false
  | .exact q => (ratMul q (mkRat scale 1)).den == 1 && fitsS 32 (ratMul q (mkRat scale 1)).num

/-- The value is exactly ten times a 16-bit field of a P8 payload (R66). -/
def isField16 (k : Int) : Bool := k % pvDiv == 0 && fitsS 16 (k / pvDiv)

/-- Well-formed: the operation is one that a command frame carries whole, each operand exactly the value its field
stands for (R64 to R66). readStatus has no command frame (R157). Operations outside this check run all the same: their
operands are truncated into the frame (R68). -/
def Instr.wellFormed : Instr → Bool
  | .setDutyCycle x => x.isField32 dutyScale
  | .setCurrent x => x.isField32 currentScale
  | .setBrakeCurrent x => x.isField32 currentScale
  | .setVelocity x => x.isField32 velocityScale
  | .setPosition x => x.isField32 posScale
  | .setOrigin _ => true
  | .setPositionVelocity x rpm acc => x.isField32 posScale && isField16 rpm && isField16 acc
  | .readStatus _ => false

/-- The payload byte check of each ServoMode: only setOrigin limits its byte, to 0x00 and 0x01 (R65, R69). -/
def payloadAllowed (mode : ServoMode) (bs : Payload) : Bool :=
  bs.length == payloadLength mode &&
    (match mode with
     | .setOrigin => bs == [0] || bs == [1]
     | _ => true)

/-- A frame of the map: extended format, identifier bits 31:16 zero, a tag of R61, that tag's payload length, and for
setOrigin a byte 0x00 or 0x01. Every other frame is one the block never emits (R69). -/
def Frame.wellFormed (f : Frame) : Bool :=
  f.extended && idOutside f.arbitrationId == 0 && idUpper f.arbitrationId == 0 &&
    (match modeOfTag (idTag f.arbitrationId) with
     | some mode => payloadAllowed mode f.payload
     | none => false)

end Sys2Proof
end

