-- ==== Sys2Proof/Decode.lean ====
section
/-! DEFINITION. The decoder of the block's instruction words and, after it, the encoder. The instruction word of an
encoder operation is its CAN frame (30_encoding.md): the identifier selects the operation and the payload carries the
operands. A payload field is an integer; the decoder reads it as the exact value it stands for (log entry 3). -/

namespace Sys2Proof

open Machine

/-- Why a frame is no instruction word of an encoder operation (R69). -/
inductive DecodeError where
  /-- A standard-format (11-bit) frame. -/
  | standardFormat
  /-- The identifier does not fit in the 29-bit field: bits 31:29 are not zero. -/
  | beyondIdentifierField
  /-- Identifier bits 28:16 are not zero. -/
  | upperIdentifierBits
  /-- Tags 7 to 255. -/
  | reservedTag (t : BitVec 8)
  /-- A payload length other than the tag's. -/
  | wrongLength (mode : ServoMode) (len : Nat)
  /-- A setOrigin byte other than 0x00 and 0x01. -/
  | reservedOriginByte (b : Byte)
  deriving DecidableEq, Repr

/-- The value that the signed 32-bit field at byte `off` stands for, at scale `s` (R64, R66). -/
def fieldNumber (bs : Payload) (off s : Nat) : Number :=
  .exact (mkRat (sext (memRead bs off 4 32)) s)

/-- The integer that the signed 16-bit field at byte `off` stands for (R66). -/
def fieldTens (bs : Payload) (off : Nat) : Int := pvDiv * sext (memRead bs off 2 16)

/-- The operation that a ServoMode and a payload stand for: P4, P1 and P8 (R64 to R66). -/
def decodeOperands (mode : ServoMode) (bs : Payload) : Except DecodeError Instr :=
  match mode with
  | .dutyCycle => .ok (.setDutyCycle (fieldNumber bs 0 dutyScale))
  | .currentLoop => .ok (.setCurrent (fieldNumber bs 0 currentScale))
  | .currentBrake => .ok (.setBrakeCurrent (fieldNumber bs 0 currentScale))
  | .velocityLoop => .ok (.setVelocity (fieldNumber bs 0 velocityScale))
  | .positionLoop => .ok (.setPosition (fieldNumber bs 0 posScale))
  | .setOrigin =>
    let b := memRead bs 0 1 8
    if b = 0 then .ok (.setOrigin false)
    else if b = 1 then .ok (.setOrigin true)
    else .error (.reservedOriginByte b)
  | .positionVelocityLoop =>
    .ok (.setPositionVelocity (fieldNumber bs 0 posScale) (fieldTens bs 4) (fieldTens bs 6))

/-- The motor identifier and the operation of a command frame; every frame outside the map of R60 to R66 is rejected
by name (R69). Total on every frame. -/
def decodeCommand (f : Frame) : Except DecodeError (MotorId × Instr) :=
  if f.extended = false then .error .standardFormat
  else if idOutside f.arbitrationId ≠ 0 then .error .beyondIdentifierField
  else if idUpper f.arbitrationId ≠ 0 then .error .upperIdentifierBits
  else
    match modeOfTag (idTag f.arbitrationId) with
    | none => .error (.reservedTag (idTag f.arbitrationId))
    | some mode =>
      if f.payload.length ≠ payloadLength mode then .error (.wrongLength mode f.payload.length)
      else
        match decodeOperands mode f.payload with
        | .ok i => .ok (idMotor f.arbitrationId, i)
        | .error e => .error e

/-- The frame is one that only readStatus's row of the opcode table matches: the row fixes no identifier bit, so it
takes the identifiers that no command row takes (bits 28:16 not zero, or a tag 7 to 255). -/
def statusRowOnly (f : Frame) : Bool :=
  match decodeCommand f with
  | .error .upperIdentifierBits => true
  | .error (.reservedTag _) => true
  | _ => false

/-- The operation of one word of the opcode table: a command row where one matches, else readStatus's row. -/
def decodeWord (f : Frame) : Except DecodeError Instr :=
  match decodeCommand f with
  | .ok (_, i) => .ok i
  | .error e => if statusRowOnly f then .ok (.readStatus none) else .error e

/-- `k` bytes of a number, least significant first: how the host numbers an instruction's bits after the first word. -/
def tableBytes : Nat → Nat → Payload
  | 0, _ => []
  | k + 1, w => BitVec.ofNat 8 w :: tableBytes k (w / 256)

/-- How many payload bytes an instruction word has: the command's length, or the eight bytes that readStatus reads
(R63, R67). -/
def wordPayloadLength (id : Identifier) : Nat :=
  if idUpper id ≠ 0 then 8
  else
    match modeOfTag (idTag id) with
    | some mode => payloadLength mode
    | none => 8

/-- The frame of an instruction word whose bits are numbered as spec/opcode_table.json numbers them: bits 31:0 are the
identifier, and payload byte `k` is bits `32 + 8k` up (log entry 16); bits from `nbits` on are zero. -/
def frameOfWord (nbits w : Nat) : Frame :=
  let w := w % 2 ^ nbits
  let id : Identifier := BitVec.ofNat 32 w
  { arbitrationId := id, payload := tableBytes (wordPayloadLength id) (w / 2 ^ 32), extended := true }

/-- The instruction the decoder reads from the word `w` of `nbits` bits. -/
def decodeTableWord (nbits w : Nat) : Option Instr :=
  match decodeWord (frameOfWord nbits w) with
  | .ok i => some i
  | .error _ => none

/-! ## The encoder, from the tables of R60 to R66 -/

/-- The P4 field of a value that is exactly a field at scale `s` (R64). -/
def encodeField32 (s : Nat) : Number → Option Payload
  | .binary64 _ => none
  | .exact q =>
    let p := ratMul q (mkRat s 1)
    if p.den = 1 ∧ fitsS 32 p.num then some (beBytes32 (tc 32 p.num)) else none

/-- A 16-bit field of P8 (R66). -/
def encodeField16 (k : Int) : Option Payload :=
  if k % pvDiv = 0 ∧ fitsS 16 (k / pvDiv) then some (beBytes16 (tc 16 (k / pvDiv))) else none

/-- The payload of an operation that a frame carries whole (R64 to R66). -/
def encodeOperands : Instr → Option Payload
  | .setDutyCycle x => encodeField32 dutyScale x
  | .setCurrent x => encodeField32 currentScale x
  | .setBrakeCurrent x => encodeField32 currentScale x
  | .setVelocity x => encodeField32 velocityScale x
  | .setPosition x => encodeField32 posScale x
  | .setOrigin permanent => some [if permanent then 1 else 0]
  | .setPositionVelocity x rpm acc =>
    match encodeField32 posScale x, encodeField16 rpm, encodeField16 acc with
    | some pos, some spd, some acc => some (pos ++ spd ++ acc)
    | _, _, _ => none
  | .readStatus _ => none

/-- The frame of an operation of motor `m`: some frame exactly where the operation is well-formed. -/
def encode (m : MotorId) (i : Instr) : Option Frame :=
  match i.mode?, encodeOperands i with
  | some mode, some bs => some (commandFrame m mode bs)
  | _, _ => none

/-- Format S8 as an encoder: the eight bytes whose raw status fields are the arguments (R67). -/
def encodeStatus (pos speed cur temp err : Int) : Payload :=
  beBytes16 (tc 16 pos) ++ beBytes16 (tc 16 speed) ++ beBytes16 (tc 16 cur) ++ beBytes8 (tc 8 temp) ++
    beBytes8 (BitVec.ofInt 8 err)

end Sys2Proof
end

