-- ==== Sys2Proof/Machine/State.lean ====
section
/-! DEFINITION. The machine's state as plain data: the one register the spec gives the block (MOTOR_ID, with the
instance's Unbuilt or Built), the parameter ARITH, and around the block its interfaces: the caller's pending
transactions, the transport's answers, and the run's observation (results and frames handed to `send`). -/

namespace Sys2Proof.Machine

/-- The block's whole architectural state (R22): `Unbuilt`, or `Built` with the register MOTOR_ID (R20, R21). -/
inductive Codec where
  | unbuilt
  | built (motorId : MotorId)
  deriving DecidableEq, Repr

/-- The parameter names an error records (R180), as R71 writes them. -/
inductive Param where
  | duty
  | current
  | rpm
  | degrees
  | acceleration
  deriving DecidableEq, Repr

/-- The parameter value an error records (R180). -/
inductive ParamValue where
  | real (x : Number)
  | int (k : Int)
  deriving DecidableEq, Repr

/-- The error conditions and what each records (R180). -/
inductive Error where
  | invalidIdentifier (v : Int)
  | outOfRange (p : Param) (v : ParamValue)
  | unrepresentable (p : Param) (v : ParamValue)
  | transportError (e : TransportError)
  deriving DecidableEq, Repr

/-- The raw status fields (R67, R152). -/
structure StatusRaw where
  posRaw : Int
  speedRaw : Int
  curRaw : Int
  temp : Int
  err : Int
  deriving DecidableEq, Repr

/-- The StatusReport (R14, R31): degrees, ERPM, amperes, degrees Celsius, error code. -/
structure StatusReport where
  position : Number
  speed : Number
  current : Number
  temperature : Int
  errorCode : Int
  deriving DecidableEq, Repr

/-- The result of one transaction (R29, R31, R180, R210). -/
inductive Result where
  /-- Construction succeeded. -/
  | built
  /-- `Ok(frame)` of an encoder operation. -/
  | ok (f : Frame)
  /-- A status record, with the raw fields exposed beside it (R31). -/
  | status (r : StatusReport) (raw : StatusRaw)
  /-- No data: a normal result, not an error (R185). -/
  | noData
  /-- An error (R187). -/
  | err (e : Error)
  /-- An operation on an Unbuilt instance (R22, R180). -/
  | refused
  deriving DecidableEq, Repr

/-- One call of the transport's `send`, with its answer (R105). -/
structure SendCall where
  frame : Frame
  answer : SendAnswer
  deriving DecidableEq, Repr

/-- One call of the transport's `receive`: the timeout as the block passed it on, and the answer (R32, R150). -/
structure ReceiveCall where
  timeout : Option Duration
  answer : ReceiveAnswer
  deriving DecidableEq, Repr

/-- The machine. Only `codec` is the block's own state (R22, R23); the rest is its parameter and its interfaces, held
here so that one step is a function of plain data (log entry 5). -/
structure State where
  /-- Unbuilt, or Built with MOTOR_ID (R20 to R22). -/
  codec : Codec
  /-- ARITH, the number domain of the status outputs (R7, R154). No step writes it. -/
  arith : Arith
  /-- The caller's pending transactions, the next one first (R214). -/
  requests : List Request
  /-- The transport's answers to the next `receive` calls, the next one first (R30, R150). -/
  rx : List ReceiveAnswer
  /-- The transport's answers to the next `send` calls, the next one first (R105). -/
  tx : List SendAnswer
  /-- The counter that the free answers are drawn at, where `rx` or `tx` lists none. The model's own field. -/
  drawn : Nat
  /-- The calls of `send` so far, oldest first: part of the run's observation (R220). -/
  sends : List SendCall
  /-- The calls of `receive` so far, oldest first. -/
  receives : List ReceiveCall
  /-- The transaction results so far, oldest first: part of the run's observation (R220). -/
  results : List Result
  deriving DecidableEq, Repr

/-- The machine before any transaction: no instance is built and MOTOR_ID has no value (R212); ARITH is binary64 (R7);
no transaction is pending, no answer scripted and nothing observed. -/
def State.reset : State :=
  { codec := .unbuilt, arith := Config.arith, requests := [], rx := [], tx := [], drawn := 0,
    sends := [], receives := [], results := [] }

/-- No step of this machine faults: every error of the spec is the transaction's result, the block's state stays as it
was and the run goes on (R187, R188). So the type has no constructor. -/
inductive Fault where
  deriving DecidableEq, Repr

/-- Why a step gives no next state. -/
inductive Refusal where
  /-- Raised by exec's arm of an instruction that has no meaning yet; safe. No arm raises it. -/
  | notModelled (mnemonic : String)
  /-- Raised by the step on a request given by a frame that is no encoding of an operation (R69, D18: "refuse if a
  model is asked to encode one"); safe. -/
  | reservedEncoding (e : DecodeError)
  /-- Raised by the step on a request given by a frame whose motor identifier is not the instance's MOTOR_ID: it is an
  encoding of another instance's operation (R60); safe. -/
  | encodingOfAnotherMotor (m : MotorId)
  /-- Raised by the step on a construction of an instance that is already built: the spec gives no re-initialisation,
  a caller constructs another instance (R213); safe. -/
  | alreadyBuilt
  deriving DecidableEq, Repr

end Sys2Proof.Machine
end

