-- ==== Sys2Proof/Machine/Flags.lean ====
section
/-! DEFINITION. The block has no flags and no condition codes (R23). Its only conditions are numeric comparisons: the
bound checks of R104, made on a parameter's value as given, before any scaling. -/

namespace Sys2Proof.Machine

/-- The numeric value of a Real (R12). -/
def numeric : Number → Extended
  | .binary64 w => Float64.value w
  | .exact q => .fin q

/-- `a <= b` as R12 compares: numerically, false where either side is NaN. -/
def Extended.le : Extended → Extended → Bool
  | .fin a, .fin b => ratLe a b
  | .fin _, .inf negative => !negative
  | .inf negative, .fin _ => negative
  | .inf a, .inf b => a || !b
  | .nan, _ => false
  | _, .nan => false

/-- `lo <= x` for an integer bound (R104). -/
def atLeast (lo : Int) (x : Number) : Bool := Extended.le (.fin (mkRat lo 1)) (numeric x)

/-- `x <= hi` for an integer bound (R104). -/
def atMost (x : Number) (hi : Int) : Bool := Extended.le (numeric x) (.fin (mkRat hi 1))

/-- `-b <= x <= b`, inclusive at both ends (R104). -/
def within (x : Number) (b : Int) : Bool := atLeast (-b) x && atMost x b

end Sys2Proof.Machine
end

