-- ==== Sys2Proof/Machine/Operands.lean ====
section
/-! DEFINITION. How an operand becomes a payload field, and a raw status field a physical value: `fmul`, `conv32`,
`conv16` (R12, R68, R102, R103), field extraction and scaling (R152, R154). -/

namespace Sys2Proof.Machine

/-- The codes of the error conditions (R180, D22). -/
def errorCode : Error → Nat
  | .invalidIdentifier _ => 1
  | .outOfRange _ _ => 2
  | .unrepresentable _ _ => 3
  | .transportError _ => 4

/-- `fmul` by a constant, in the number domain of the value (R12). -/
def fmul (x : Number) (c : Scale) : Number :=
  match x with
  | .binary64 w => .binary64 (Float64.mul w c.float)
  | .exact q => .exact (ratMul q c.exact)

/-- `conv32`: Real to int32 (R102). NaN, an infinity, an infinite product, or a truncated product outside int32 is
Unrepresentable. -/
def conv32 (x : Number) (s : Nat) (name : Param) : Except Error Int :=
  match numeric x with
  | .nan => .error (.unrepresentable name (.real x))
  | .inf _ => .error (.unrepresentable name (.real x))
  | .fin _ =>
    match numeric (fmul x (Scale.ofNat s)) with
    | .nan => .error (.unrepresentable name (.real x))
    | .inf _ => .error (.unrepresentable name (.real x))
    | .fin p =>
      if fitsS 32 (trunc p) then .ok (trunc p) else .error (.unrepresentable name (.real x))

/-- `conv16`: integer to int16 through `tdiv` by 10 (R103). -/
def conv16 (k : Int) (name : Param) : Except Error Int :=
  if fitsS 16 (tdiv k pvDiv) then .ok (tdiv k pvDiv) else .error (.unrepresentable name (.int k))

/-- A parameter's bound check: OutOfRange where it fails (R104, R182). -/
def requireBound (ok : Bool) (name : Param) (x : Number) : Except Error Unit :=
  if ok then .ok () else .error (.outOfRange name (.real x))

/-- The P4 payload of an int32 (R64). -/
def p4 (n : Int) : Payload := beBytes32 (tc 32 n)

/-- The P1 payload (R65). -/
def p1 (permanent : Bool) : Payload := [if permanent then 0x01 else 0x00]

/-- The P8 payload (R66). -/
def p8 (pos spd acc : Int) : Payload :=
  beBytes32 (tc 32 pos) ++ beBytes16 (tc 16 spd) ++ beBytes16 (tc 16 acc)

/-- Field extraction from a payload of at least 8 bytes (R152). -/
def extract (bs : Payload) : StatusRaw :=
  { posRaw := sext (memRead bs 0 2 16)
    speedRaw := sext (memRead bs 2 2 16)
    curRaw := sext (memRead bs 4 2 16)
    temp := sext (memRead bs 6 1 8)
    err := zext (memRead bs 7 1 8) }

/-- An integer in the number domain ARITH (R154: a raw int16 converts to binary64 exactly). -/
def ofInt (a : Arith) (n : Int) : Number :=
  match a with
  | .binary64 => .binary64 (Float64.ofInt n)
  | .exact => .exact (mkRat n 1)

/-- Physical-unit scaling of the raw fields (R154). -/
def scaleStatus (a : Arith) (raw : StatusRaw) : StatusReport :=
  { position := fmul (ofInt a raw.posRaw) stPosScale
    speed := fmul (ofInt a raw.speedRaw) stSpeedScale
    current := fmul (ofInt a raw.curRaw) stCurScale
    temperature := raw.temp
    errorCode := raw.err }

/-- Classification and decoding of a received payload: fewer than 8 bytes is no data, and bytes from index 8 on are
ignored (R151). -/
def decodePayload (a : Arith) (bs : Payload) : Result :=
  if bs.length < 8 then .noData else .status (scaleStatus a (extract bs)) (extract bs)

/-- The result of a readStatus from the transport's answer alone (R150, R156, R157, R184). -/
def decodeAnswer (a : Arith) : ReceiveAnswer → Result
  | .absent => .noData
  | .frame bs => decodePayload a bs
  | .failed e => .err (.transportError e)

end Sys2Proof.Machine
end

