-- ==== Sys2Proof/Machine/Ops.lean ====
section
/-! DEFINITION. The operations every transaction is built from: reporting a result, raising an error, handing one frame
to `send`, asking `receive` once, and the encoder's common pipeline. -/

namespace Sys2Proof.Machine

/-- The answer of one transaction. -/
abbrev Answer := Host.Outcome State Fault Refusal

/-- A transaction reports its one result (R186). -/
def report (r : Result) (s : State) : State := { s with results := s.results ++ [r] }

/-- Error reporting, the block's trap entry (R187): the error is the transaction's result; nothing is saved, no mode
changes, no handler is entered, and every other part of the state is what it was. There is no return from it: the next
transaction runs as though this one had not happened (R188). -/
def raise (e : Error) (s : State) : State := report (.err e) s

/-- An operation on an Unbuilt instance: reported as refused, with no other effect (R22, R180; log entry 9). -/
def refuse (s : State) : State := report .refused s

/-- The transport's answer to the next `send`: the one State scripts, else a free draw (R105). -/
def sendAnswer (s : State) : SendAnswer :=
  match s.tx with
  | a :: _ => a
  | [] => Config.freeSend s.drawn

/-- `emit`: the transport's `send` is called once with the frame (R13, R105). -/
def emit (f : Frame) (s : State) : State :=
  { s with
    sends := s.sends ++ [{ frame := f, answer := sendAnswer s }]
    tx := s.tx.tail
    drawn := if s.tx = [] then s.drawn + 1 else s.drawn }

/-- The encoder's result from `send`'s answer: the frame, or the transport's error unmodified (R105, R184). -/
def sendResult (f : Frame) : SendAnswer → Result
  | .accepted => .ok f
  | .failed e _ => .err (.transportError e)

/-- One frame is handed to the transport and the transaction reports its result (R100, R105). -/
def transmit (f : Frame) (s : State) : State := report (sendResult f (sendAnswer s)) (emit f s)

/-- The transport's answer to the next `receive`: the one State scripts, else a free draw (R150). -/
def receiveAnswer (s : State) : ReceiveAnswer :=
  match s.rx with
  | a :: _ => a
  | [] => Config.freeReceive s.drawn

/-- The transport's `receive` is called once, with the timeout passed on unchanged (R32, R150). -/
def receive (timeout : Option Duration) (s : State) : State :=
  { s with
    receives := s.receives ++ [{ timeout := timeout, answer := receiveAnswer s }]
    rx := s.rx.tail
    drawn := if s.rx = [] then s.drawn + 1 else s.drawn }

/-- How long the transport waits in a `receive` call: the caller's timeout, or RX_TIMEOUT where there is none (R32). -/
def waitOf (c : ReceiveCall) : Duration := c.timeout.getD Config.rxTimeout

/-- The encoder's common pipeline (R100, R106, R186): refused on an Unbuilt instance; an error of `pack` is raised and
nothing is emitted; otherwise the one frame is built from the tag, MOTOR_ID and the payload, and handed over. -/
def encodeTransaction (pack : Except Error (ServoMode × Payload)) (s : State) : Answer :=
  match s.codec with
  | .unbuilt => .next (refuse s)
  | .built m =>
    match pack with
    | .error e => .next (raise e s)
    | .ok (mode, payload) => .next (transmit (commandFrame m mode payload) s)

/-- The decoder's pipeline (R157): refused on an Unbuilt instance, where `receive` is not called; otherwise one
`receive`, and the result its answer decodes to. -/
def statusTransaction (timeout : Option Duration) (s : State) : Answer :=
  match s.codec with
  | .unbuilt => .next (refuse s)
  | .built _ => .next (report (decodeAnswer s.arith (receiveAnswer s)) (receive timeout s))

end Sys2Proof.Machine
end

