-- ==== Sys2Proof/Machine/Commands.lean ====
section
/-! DEFINITION. The seven commands (R110 to R116): for each, `pack`, which runs every check before it gives a payload,
and the meaning. -/

namespace Sys2Proof.Machine

/-- setDutyCycle's payload (R110). -/
def packDutyCycle (duty : Number) : Except Error (ServoMode × Payload) :=
  match requireBound (within duty dutyMax) .duty duty with
  | .error e => .error e
  | .ok _ =>
    match conv32 duty dutyScale .duty with
    | .error e => .error e
    | .ok n => .ok (.dutyCycle, p4 n)

/-- setCurrent's payload (R111). -/
def packCurrent (current : Number) : Except Error (ServoMode × Payload) :=
  match conv32 current currentScale .current with
  | .error e => .error e
  | .ok n => .ok (.currentLoop, p4 n)

/-- setBrakeCurrent's payload (R112). -/
def packBrakeCurrent (current : Number) : Except Error (ServoMode × Payload) :=
  match requireBound (atLeast 0 current) .current current with
  | .error e => .error e
  | .ok _ =>
    match conv32 current currentScale .current with
    | .error e => .error e
    | .ok n => .ok (.currentBrake, p4 n)

/-- setVelocity's payload (R113). -/
def packVelocity (rpm : Number) : Except Error (ServoMode × Payload) :=
  match conv32 rpm velocityScale .rpm with
  | .error e => .error e
  | .ok n => .ok (.velocityLoop, p4 n)

/-- setPosition's payload (R114). -/
def packPosition (degrees : Number) : Except Error (ServoMode × Payload) :=
  match requireBound (within degrees posMax) .degrees degrees with
  | .error e => .error e
  | .ok _ =>
    match conv32 degrees posScale .degrees with
    | .error e => .error e
    | .ok n => .ok (.positionLoop, p4 n)

/-- setOrigin's payload (R115). -/
def packOrigin (permanent : Bool) : Except Error (ServoMode × Payload) := .ok (.setOrigin, p1 permanent)

/-- setPositionVelocity's payload (R116); the checks run in this order and the first that fails is reported (R186). -/
def packPositionVelocity (degrees : Number) (rpm acceleration : Int) : Except Error (ServoMode × Payload) :=
  match requireBound (within degrees posMax) .degrees degrees with
  | .error e => .error e
  | .ok _ =>
    match conv32 degrees posScale .degrees with
    | .error e => .error e
    | .ok pos =>
      match conv16 rpm .rpm with
      | .error e => .error e
      | .ok spd =>
        match conv16 acceleration .acceleration with
        | .error e => .error e
        | .ok acc => .ok (.positionVelocityLoop, p8 pos spd acc)

/-- R110 -/
def execSetDutyCycle (duty : Number) (s : State) : Answer := encodeTransaction (packDutyCycle duty) s

/-- R111 -/
def execSetCurrent (current : Number) (s : State) : Answer := encodeTransaction (packCurrent current) s

/-- R112 -/
def execSetBrakeCurrent (current : Number) (s : State) : Answer := encodeTransaction (packBrakeCurrent current) s

/-- R113 -/
def execSetVelocity (rpm : Number) (s : State) : Answer := encodeTransaction (packVelocity rpm) s

/-- R114 -/
def execSetPosition (degrees : Number) (s : State) : Answer := encodeTransaction (packPosition degrees) s

/-- R115 -/
def execSetOrigin (permanent : Bool) (s : State) : Answer := encodeTransaction (packOrigin permanent) s

/-- R116 -/
def execSetPositionVelocity (degrees : Number) (rpm acceleration : Int) (s : State) : Answer :=
  encodeTransaction (packPositionVelocity degrees rpm acceleration) s

end Sys2Proof.Machine
end

