-- ==== Sys2Proof/Machine/Status.lean ====
section
/-! DEFINITION. The decoder operation readStatus (R157). -/

namespace Sys2Proof.Machine

/-- R157. MOTOR_ID is not an operand; the result depends on the transport's answer alone. -/
def execReadStatus (timeout : Option Duration) (s : State) : Answer := statusTransaction timeout s

end Sys2Proof.Machine
end

