-- ==== Sys2Proof/Machine/Dispatch.lean ====
section
/-! DEFINITION. One arm per operation of the opcode table. -/

namespace Sys2Proof.Machine

def exec (i : Instr) (s : State) : Host.Outcome State Fault Refusal :=
  match i with
  | .setDutyCycle duty => Sys2Proof.Machine.execSetDutyCycle duty s
  | .setCurrent current => Sys2Proof.Machine.execSetCurrent current s
  | .setBrakeCurrent current => Sys2Proof.Machine.execSetBrakeCurrent current s
  | .setVelocity rpm => Sys2Proof.Machine.execSetVelocity rpm s
  | .setPosition degrees => Sys2Proof.Machine.execSetPosition degrees s
  | .setOrigin permanent => Sys2Proof.Machine.execSetOrigin permanent s
  | .setPositionVelocity degrees rpm acceleration => Sys2Proof.Machine.execSetPositionVelocity degrees rpm acceleration s
  | .readStatus timeout => Sys2Proof.Machine.execReadStatus timeout s

end Sys2Proof.Machine
end

