-- ==== Sys2Proof/Machine/Construct.lean ====
section
/-! DEFINITION. Construction `Codec(v)`, the block's only initialisation (R210). It has no row in the opcode table
(R71), so it is a request and not an instruction. -/

namespace Sys2Proof.Machine

/-- R210, R181, R211: an integer in [0, 255] loads MOTOR_ID; any other raises InvalidIdentifier and the instance stays
Unbuilt. No frame is emitted and neither `send` nor `receive` is called. A built instance is never constructed again
(R213; log entry 8). -/
def construct (v : Int) (s : State) : Answer :=
  match s.codec with
  | .built _ => .refused .alreadyBuilt
  | .unbuilt =>
    if 0 ≤ v ∧ v ≤ 255 then .next (report .built { s with codec := .built (BitVec.ofInt 8 v) })
    else .next (raise (.invalidIdentifier v) s)

end Sys2Proof.Machine
end

