-- ==== Sys2Proof/Machine/Fetch.lean ====
section
/-! DEFINITION. Accepting the caller's next transaction (R214), and presenting one word of the opcode table as the next
transaction (the host's interface). The block fetches nothing from memory and has no program counter (R50, R214). -/

namespace Sys2Proof.Machine

/-- What the block accepts next. -/
inductive Accepted where
  /-- No transaction is pending. -/
  | idle
  /-- A construction, with the state it runs in. -/
  | construct (v : Int) (s : State)
  /-- An operation, with the state it runs in. -/
  | operation (i : Instr) (s : State)
  /-- A request that is no transaction of this instance. -/
  | reject (r : Refusal)
  deriving DecidableEq, Repr

/-- A command frame is an encoding of this instance's operation only where its motor identifier is MOTOR_ID (R60). -/
def forThisInstance (m : MotorId) : Codec → Bool
  | .unbuilt => true
  | .built m' => m == m'

/-- The next transaction leaves the caller's list and is accepted. A request given by a frame is decoded first, and
refused where the frame is no encoding (R69). -/
def accept (s : State) : Accepted :=
  match s.requests with
  | [] => .idle
  | .construct v :: rest => .construct v { s with requests := rest }
  | .call i :: rest => .operation i { s with requests := rest }
  | .encoded f :: rest =>
    match decodeCommand f with
    | .error e => .reject (.reservedEncoding e)
    | .ok (m, i) =>
      if forThisInstance m s.codec then .operation i { s with requests := rest }
      else .reject (.encodingOfAnotherMotor m)

/-- An instance to read a status word with: the one there is, else one built with the word's low byte. -/
def builtFor (m : MotorId) : Codec → Codec
  | .unbuilt => .built m
  | .built m' => .built m'

/-- One instruction word becomes the next transaction. A command word is presented as its frame, on an instance whose
MOTOR_ID is the word's motor field (a word of another motor is no word of this instance). A word that only readStatus's
row matches is an inbound frame: its payload is the transport's next answer, and readStatus the next transaction. -/
def presentWord (s : State) (nbits w : Nat) : State :=
  let f := frameOfWord nbits w
  if statusRowOnly f then
    { s with
      codec := builtFor (idMotor f.arbitrationId) s.codec
      rx := .frame f.payload :: s.rx
      requests := .call (.readStatus none) :: s.requests }
  else
    { s with
      codec := .built (idMotor f.arbitrationId)
      requests := .encoded f :: s.requests }

end Sys2Proof.Machine
end

