-- ==== Sys2Proof/Machine/Step.lean ====
section
/-! DEFINITION. One step is one whole transaction (R46, R219). -/

namespace Sys2Proof.Machine

/-- One transaction: the next request is accepted and completed (R214). With none pending nothing changes
(log entry 7). -/
def step (s : State) : Host.Outcome State Fault Refusal :=
  match accept s with
  | .idle => .next s
  | .construct v s' => construct v s'
  | .operation i s' => exec i s'
  | .reject r => .refused r

/-- The state whose next step runs the instruction word `w` of `nbits` bits (log entries 4 and 16). -/
def State.withFetchWord (s : State) (nbits w : Nat) : State := presentWord s nbits w

end Sys2Proof.Machine
end

