-- ==== Sys2Proof/Machine/System.lean ====
section
/-! DEFINITION. Several block instances side by side (R33, R192): each has its own state, transactions are atomic, and
any interleaving of them is a run (R48, D12). Which instance steps is an argument, so a claim for every order of
arguments is a claim for every interleaving (log entry 14). -/

namespace Sys2Proof.Machine

/-- The instances, and the frames handed to `send` by any of them, oldest first, each with its instance's index. -/
structure System where
  blocks : List State
  wire : List (Nat × Frame)
  deriving DecidableEq, Repr

/-- The frames that one step handed to `send`. -/
def framesSince (s t : State) : List Frame := (t.sends.drop s.sends.length).map SendCall.frame

/-- Instance `k` completes its next transaction; no other instance takes part. An index with no instance changes
nothing. -/
def stepBlock (k : Nat) (y : System) : Host.Outcome System Fault Refusal :=
  match y.blocks[k]? with
  | none => .next y
  | some s =>
    match step s with
    | .next t =>
      .next { blocks := y.blocks.set k t, wire := y.wire ++ (framesSince s t).map fun f => (k, f) }
    | .fault e => .fault e
    | .refused r => .refused r

/-- A caller constructs another instance (R213): it starts Unbuilt with the construction as its first transaction.
Two instances may be given the same motor identifier (R33, D20). -/
def addBlock (v : Int) (y : System) : System :=
  { y with blocks := y.blocks ++ [{ State.reset with requests := [.construct v] }] }

/-- An interleaving: the instances step in the order the schedule lists. -/
def runSchedule : List Nat → System → Host.Outcome System Fault Refusal
  | [], y => .next y
  | k :: ks, y =>
    match stepBlock k y with
    | .next y' => runSchedule ks y'
    | .fault e => .fault e
    | .refused r => .refused r

end Sys2Proof.Machine
end

