-- ==== Sys2Proof/Safety.lean ====
section
/-! DEFINITION. The terms claims are stated in: what one transaction may change, and the invariants of the machine's
history. -/

namespace Sys2Proof.Machine

/-- The answer the next `send` gets: the scripted one, or the free draw where none is scripted (R105). -/
def NextSend (s : State) (a : SendAnswer) : Prop :=
  s.tx.head? = some a ∨ (s.tx = [] ∧ a = Config.freeSend s.drawn)

/-- The answer the next `receive` gets (R150). -/
def NextReceive (s : State) (a : ReceiveAnswer) : Prop :=
  s.rx.head? = some a ∨ (s.rx = [] ∧ a = Config.freeReceive s.drawn)

/-- From `s` to `t` exactly the frame `f` is handed to `send`, once, and its answer is the transaction's result: the
frame where it is accepted, the transport's error unmodified where it is not (R105, R184). Nothing else changes: not
the instance nor MOTOR_ID, not ARITH, not the pending transactions, not the transport's other answers. -/
def Emits (s t : State) (f : Frame) : Prop :=
  ∃ a, NextSend s a ∧
    t = { s with
      sends := s.sends ++ [{ frame := f, answer := a }]
      tx := s.tx.tail
      drawn := if s.tx = [] then s.drawn + 1 else s.drawn
      results := s.results ++ [match a with
        | .accepted => Result.ok f
        | .failed e _ => Result.err (.transportError e)] }

/-- From `s` to `t` the transaction only reports `r`: no frame is handed over, nothing is received, and nothing else
changes (R187). -/
def Reports (s t : State) (r : Result) : Prop := t = { s with results := s.results ++ [r] }

/-- From `s` to `t` one `receive` is made with the timeout passed on, its answer is `a`, and the transaction reports
`r`; nothing else changes (R150, R157). -/
def Receives (s t : State) (timeout : Option Duration) (a : ReceiveAnswer) (r : Result) : Prop :=
  NextReceive s a ∧
    t = { s with
      receives := s.receives ++ [{ timeout := timeout, answer := a }]
      rx := s.rx.tail
      drawn := if s.rx = [] then s.drawn + 1 else s.drawn
      results := s.results ++ [r] }

/-- Every frame ever handed to `send` is one of the map (R60 to R66, R69), and its motor identifier is the instance's
MOTOR_ID. So an Unbuilt instance has sent nothing. -/
def FramesLegal (s : State) : Prop :=
  ∀ c ∈ s.sends, c.frame.wellFormed = true ∧ s.codec = .built (idMotor c.frame.arbitrationId)

/-- The frames that `send` accepted, in order. -/
def acceptedFrames (s : State) : List Frame :=
  s.sends.filterMap fun c => match c.answer with
    | .accepted => some c.frame
    | .failed _ _ => none

/-- The frames that transactions reported as `Ok`, in order. -/
def okFrames (s : State) : List Frame :=
  s.results.filterMap fun r => match r with
    | .ok f => some f
    | _ => none

/-- The caller's `Ok` results and the frames `send` accepted agree, in order (R48, R106): no result without its frame
and no frame without its result. -/
def HistoryAgrees (s : State) : Prop := acceptedFrames s = okFrames s

/-- Every raw status field ever reported is in its field's range (R155). -/
def StatusInRange (s : State) : Prop :=
  ∀ r raw, Result.status r raw ∈ s.results →
    (-32768 ≤ raw.posRaw ∧ raw.posRaw ≤ 32767) ∧ (-32768 ≤ raw.speedRaw ∧ raw.speedRaw ≤ 32767) ∧
      (-32768 ≤ raw.curRaw ∧ raw.curRaw ≤ 32767) ∧ (-128 ≤ raw.temp ∧ raw.temp ≤ 127) ∧
      (0 ≤ raw.err ∧ raw.err ≤ 255) ∧ r.temperature = raw.temp ∧ r.errorCode = raw.err

/-- `p` is the product that `conv32` truncates: the value is a number, and its `fmul` by the scale is the number `p`
(R102). -/
def ScaledTo (x : Number) (scale : Nat) (p : Rat) : Prop :=
  (∃ q, numeric x = .fin q) ∧ numeric (fmul x (Scale.ofNat scale)) = .fin p

/-- A big-endian pair of bytes read as a signed 16-bit integer (R67). -/
def signed16 (hi lo : Byte) : Int := 256 * hi.toInt + lo.toNat

/-- The raw status fields of eight payload bytes (R67). -/
def rawOf (b0 b1 b2 b3 b4 b5 b6 b7 : Byte) : StatusRaw :=
  { posRaw := signed16 b0 b1, speedRaw := signed16 b2 b3, curRaw := signed16 b4 b5, temp := b6.toInt,
    err := b7.toNat }

/-- The operation's Real parameter passes its bound check (R104); an operation without one passes. -/
def InBounds : Instr → Prop
  | .setDutyCycle x => within x dutyMax = true
  | .setCurrent _ => True
  | .setBrakeCurrent x => atLeast 0 x = true
  | .setVelocity _ => True
  | .setPosition x => within x posMax = true
  | .setOrigin _ => True
  | .setPositionVelocity x _ _ => within x posMax = true
  | .readStatus _ => True

/-- A frame written out: identifier and payload, extended format. -/
def ext (id : Identifier) (bs : Payload) : Frame := { arbitrationId := id, payload := bs, extended := true }

/-- The machine's invariant. -/
def Inv (s : State) : Prop := FramesLegal s ∧ HistoryAgrees s ∧ StatusInRange s

end Sys2Proof.Machine
end

