-- ==== Sys2Proof/Certificates/Slice0/Obligations.lean ====
section
/-! DEFINITION. The statements for the provers. -/

open Sys2Proof Sys2Proof.Machine

/-! ## Identifiers, payload formats, decode and encode -/

/-- R62: for every tag and motor identifier the identifier gives back both, and distinct pairs give distinct
identifiers. -/
def Obligations.IdentifierRoundTrip : Prop :=
  (∀ t m, t.toNat ≤ 6 → idTag (arbId t m) = t ∧ idMotor (arbId t m) = m) ∧
  (∀ t t' m m', arbId t m = arbId t' m' → t = t' ∧ m = m')

/-- R60, R101: the identifier of every frame handed to `send`: tag in bits 15:8, MOTOR_ID in bits 7:0, every other bit
of the u32 zero, extended format; and the largest identifier. -/
def Obligations.EmittedIdentifierLayout : Prop :=
  (∀ i s m t c, s.codec = .built m → exec i s = .next t → t.sends = s.sends ++ [c] →
    ∃ mode, i.mode? = some mode ∧
      c.frame.arbitrationId = ((tagOf mode).setWidth 32 <<< 8) ||| m.setWidth 32 ∧
      c.frame.arbitrationId.extractLsb' 16 16 = 0 ∧
      c.frame.arbitrationId.extractLsb' 8 8 = tagOf mode ∧
      c.frame.arbitrationId.extractLsb' 0 8 = m ∧
      c.frame.extended = true ∧
      c.frame.arbitrationId.toNat ≤ 0x6FF) ∧
  (arbId (tagOf .positionVelocityLoop) 255).toNat = 0x6FF

/-- R64, R65, R66: the bytes of the three payload formats, most significant byte first in each field. -/
def Obligations.PayloadFormats : Prop :=
  (∀ n, p4 n = [(tc 32 n).extractLsb' 24 8, (tc 32 n).extractLsb' 16 8, (tc 32 n).extractLsb' 8 8,
    (tc 32 n).extractLsb' 0 8]) ∧
  (p1 true = [0x01] ∧ p1 false = [0x00]) ∧
  (∀ pos spd acc, p8 pos spd acc =
    [(tc 32 pos).extractLsb' 24 8, (tc 32 pos).extractLsb' 16 8, (tc 32 pos).extractLsb' 8 8,
      (tc 32 pos).extractLsb' 0 8,
      (tc 16 spd).extractLsb' 8 8, (tc 16 spd).extractLsb' 0 8,
      (tc 16 acc).extractLsb' 8 8, (tc 16 acc).extractLsb' 0 8])

/-- R10, D16: two's complement loses no integer that fits its field, at each of the spec's three widths. -/
def Obligations.TwosComplementRoundTrip : Prop :=
  (∀ n : Int, -2147483648 ≤ n → n ≤ 2147483647 → sext (tc 32 n) = n) ∧
  (∀ n : Int, -32768 ≤ n → n ≤ 32767 → sext (tc 16 n) = n) ∧
  (∀ n : Int, -128 ≤ n → n ≤ 127 → sext (tc 8 n) = n)

/-- R61, R63: when an operation hands a frame to `send`, the frame's tag is that of the operation's ServoMode, and its
payload length is the tag's: 4, 1 or 8 bytes. -/
def Obligations.EmittedFrameFollowsTag : Prop :=
  ∀ i s t c, exec i s = .next t → t.sends = s.sends ++ [c] →
    ∃ mode, i.mode? = some mode ∧ idTag c.frame.arbitrationId = tagOf mode ∧
      c.frame.payload.length =
        (if (tagOf mode).toNat ≤ 4 then 4 else if (tagOf mode).toNat = 5 then 1 else 8)

/-- The map of tags to operations (R61), read off the syntax. -/
def Obligations.TagMapOfTheSeven : Prop :=
  ∀ (x : Number) (b : Bool) (k a : Int) (w : Option Duration),
    ((Instr.setDutyCycle x).mode?.map tagOf = some 0) ∧ ((Instr.setCurrent x).mode?.map tagOf = some 1) ∧
    ((Instr.setBrakeCurrent x).mode?.map tagOf = some 2) ∧ ((Instr.setVelocity x).mode?.map tagOf = some 3) ∧
    ((Instr.setPosition x).mode?.map tagOf = some 4) ∧ ((Instr.setOrigin b).mode?.map tagOf = some 5) ∧
    ((Instr.setPositionVelocity x k a).mode?.map tagOf = some 6) ∧ (Instr.readStatus w).mode? = none

/-- Every well-formed operation has a frame, and decoding that frame gives back the motor identifier and the operation,
with every operand at every value its field admits (model's reading of a field: log entry 3). -/
def Obligations.DecodeOfEncode : Prop :=
  ∀ m i, i.wellFormed = true → ∃ f, encode m i = some f ∧ decodeCommand f = .ok (m, i)

/-- A frame that decodes is the encoding of what it decodes to, so no two frames decode alike and no bit of a frame is
ignored; and what it decodes to is well-formed (model's reading of a field: log entry 3). -/
def Obligations.EncodeOfDecode : Prop :=
  ∀ f m i, decodeCommand f = .ok (m, i) → i.wellFormed = true ∧ encode m i = some f

/-- The decoder takes exactly the frames of the map (R60 to R66); every other frame is rejected (R69). That every frame of
the map decodes, also one whose field lies beyond the operation's bound, is the model's choice (log entry 18). -/
def Obligations.DecoderTakesExactlyTheMap : Prop :=
  ∀ f, (∃ m i, decodeCommand f = .ok (m, i)) ↔ f.wellFormed = true

/-- R69: a model asked to encode an encoding outside the map refuses it, here each kind by its name. -/
def Obligations.ReservedEncodingsAreRefused : Prop :=
  ∀ s f rest, s.requests = .encoded f :: rest →
    (f.extended = false → step s = .refused (.reservedEncoding .standardFormat)) ∧
    (f.extended = true → 2 ^ 29 ≤ f.arbitrationId.toNat →
      step s = .refused (.reservedEncoding .beyondIdentifierField)) ∧
    (f.extended = true → f.arbitrationId.toNat < 2 ^ 29 → 2 ^ 16 ≤ f.arbitrationId.toNat →
      step s = .refused (.reservedEncoding .upperIdentifierBits)) ∧
    (f.extended = true → f.arbitrationId.toNat < 2 ^ 16 → 0x700 ≤ f.arbitrationId.toNat →
      step s = .refused (.reservedEncoding (.reservedTag (idTag f.arbitrationId)))) ∧
    (∀ mode, f.extended = true → f.arbitrationId.toNat < 0x700 → idTag f.arbitrationId = tagOf mode →
      f.payload.length ≠ payloadLength mode →
      step s = .refused (.reservedEncoding (.wrongLength mode f.payload.length))) ∧
    (∀ b : Byte, f.extended = true → f.arbitrationId.toNat < 0x600 → 0x500 ≤ f.arbitrationId.toNat →
      f.payload = [b] → b ≠ 0 → b ≠ 1 →
      step s = .refused (.reservedEncoding (.reservedOriginByte b)))

/-- Frames written out from the spec's worked examples decode to the operations they stand for. The frames are the
spec's; that a field stands for the exact value it holds is the model's choice (log entry 3), and so is the word of
readStatus (log entry 16). -/
def Obligations.WordsOfTheWorkedExamples : Prop :=
  decodeCommand (ext 0x00000068 [0x00, 0x00, 0xC3, 0x50]) = .ok (0x68, .setDutyCycle (.exact (mkRat 1 2))) ∧
  decodeCommand (ext 0x00000168 [0x00, 0x00, 0x13, 0x88]) = .ok (0x68, .setCurrent (.exact 5)) ∧
  decodeCommand (ext 0x00000268 [0x00, 0x00, 0x13, 0x88]) = .ok (0x68, .setBrakeCurrent (.exact 5)) ∧
  decodeCommand (ext 0x00000368 [0xFF, 0xFF, 0xFC, 0x18]) = .ok (0x68, .setVelocity (.exact (-1000))) ∧
  decodeCommand (ext 0x00000468 [0x00, 0x1B, 0x77, 0x40]) = .ok (0x68, .setPosition (.exact 180)) ∧
  decodeCommand (ext 0x000005FF [0x01]) = .ok (0xFF, .setOrigin true) ∧
  decodeCommand (ext 0x00000668 [0x00, 0x1B, 0x77, 0x40, 0x01, 0xF4, 0x0B, 0xB8]) =
    .ok (0x68, .setPositionVelocity (.exact 180) 5000 30000) ∧
  decodeTableWord 32 0x00002905 = some (.readStatus none)

/-- Format S8 (R67): the decoder's field extraction inverts the format, in both directions. -/
def Obligations.StatusFormatRoundTrip : Prop :=
  (∀ raw : StatusRaw,
    -32768 ≤ raw.posRaw → raw.posRaw ≤ 32767 → -32768 ≤ raw.speedRaw → raw.speedRaw ≤ 32767 →
    -32768 ≤ raw.curRaw → raw.curRaw ≤ 32767 → -128 ≤ raw.temp → raw.temp ≤ 127 → 0 ≤ raw.err → raw.err ≤ 255 →
    extract (encodeStatus raw.posRaw raw.speedRaw raw.curRaw raw.temp raw.err) = raw) ∧
  (∀ bs : Payload, bs.length = 8 →
    encodeStatus (extract bs).posRaw (extract bs).speedRaw (extract bs).curRaw (extract bs).temp (extract bs).err
      = bs)

/-! ## The step -/

/-- A step runs the operation presented: one called with its parameters, and one given by its frame, decoded, where
the frame's motor identifier is the instance's (frames as requests: log entry 4). -/
def Obligations.StepRunsThePresentedOperation : Prop :=
  (∀ s i rest, s.requests = .call i :: rest → step s = exec i { s with requests := rest }) ∧
  (∀ s f m i rest, s.requests = .encoded f :: rest → decodeCommand f = .ok (m, i) →
    s.codec = .unbuilt ∨ s.codec = .built m → step s = exec i { s with requests := rest }) ∧
  (∀ s f m m' i rest, s.requests = .encoded f :: rest → decodeCommand f = .ok (m, i) → s.codec = .built m' →
    m ≠ m' → step s = .refused (.encodingOfAnotherMotor m))

/-- The very next step after an instruction word is placed runs the word's instruction (the host's interface: log
entries 4 and 16). -/
def Obligations.StepRunsThePlacedWord : Prop :=
  ∀ (s : State) nbits w,
    (∀ m i, decodeCommand (frameOfWord nbits w) = .ok (m, i) →
      decodeTableWord nbits w = some i ∧
      step (s.withFetchWord nbits w) = exec i { s with codec := .built m }) ∧
    (statusRowOnly (frameOfWord nbits w) = true →
      decodeTableWord nbits w = some (.readStatus none) ∧
      ∃ m, (s.codec = .built m ∨ (s.codec = .unbuilt ∧ m = idMotor (frameOfWord nbits w).arbitrationId)) ∧
        step (s.withFetchWord nbits w) =
          exec (.readStatus none)
            { s with codec := .built m, rx := .frame (frameOfWord nbits w).payload :: s.rx })

/-- With no transaction pending a step changes nothing (the model's choice: log entry 7). -/
def Obligations.IdleStepChangesNothing : Prop := ∀ s, s.requests = [] → step s = .next s

/-- R186, R13: a transaction reports exactly one result and hands at most one frame over; it takes its own request off
the caller's list and touches no later one, and it never rewrites ARITH or what was observed before. -/
def Obligations.OneResultAndAtMostOneFrame : Prop :=
  ∀ s t, s.requests ≠ [] → step s = .next t →
    (∃ r, t.results = s.results ++ [r]) ∧
    (t.sends = s.sends ∨ ∃ c, t.sends = s.sends ++ [c]) ∧
    (t.receives = s.receives ∨ ∃ c, t.receives = s.receives ++ [c]) ∧
    t.requests = s.requests.tail ∧ t.arith = s.arith

/-- No operation stops the machine: in every state each operation completes with a next state. -/
def Obligations.EveryOperationCompletes : Prop := ∀ i s, ∃ t, exec i s = .next t

/-! ## Construction and the instance -/

/-- R212, first column: before construction the instance is Unbuilt, MOTOR_ID has no value, and nothing has been sent,
received or reported. -/
def Obligations.ResetIsUnbuilt : Prop :=
  State.reset.codec = .unbuilt ∧ State.reset.sends = [] ∧ State.reset.receives = [] ∧ State.reset.results = [] ∧
    State.reset.arith = .binary64

/-- R210, R211, R181: construction of an Unbuilt instance. An integer in [0, 255] loads MOTOR_ID with its value; any
other raises InvalidIdentifier with the rejected value and the instance stays Unbuilt. Nothing is sent or received
(R211, which the spec derives from R210). -/
def Obligations.ConstructionLoadsMotorIdOrRaises : Prop :=
  ∀ s v rest, s.codec = .unbuilt → s.requests = .construct v :: rest →
    (0 ≤ v → v ≤ 255 → ∃ m : MotorId, (m.toNat : Int) = v ∧
      step s = .next { s with codec := .built m, requests := rest, results := s.results ++ [.built] }) ∧
    (v < 0 ∨ 255 < v →
      step s = .next { s with requests := rest, results := s.results ++ [.err (.invalidIdentifier v)] })

/-- R22, first sentence: on an Unbuilt instance every encoder and decoder operation is refused, whatever its operands;
nothing is sent, `receive` is not called and nothing else changes. -/
def Obligations.UnbuiltInstanceRefuses : Prop :=
  ∀ i s, s.codec = .unbuilt → ∃ t, exec i s = .next t ∧ Reports s t .refused

/-- R20, R213: once built, an instance keeps its MOTOR_ID through any number of transactions, whatever they are and
whatever the transport answers. -/
def Obligations.MotorIdIsImmutable : Prop :=
  ∀ k s t m, s.codec = .built m → Sys2Proof.core.run k s = .next t → State.codec t = .built m

/-- Only a construction with an integer in [0, 255] leaves the Unbuilt state (R22, R210). -/
def Obligations.OnlyConstructionBuilds : Prop :=
  ∀ s t m, s.codec = .unbuilt → step s = .next t → t.codec = .built m →
    ∃ v rest, s.requests = .construct v :: rest ∧ 0 ≤ v ∧ v ≤ 255 ∧ (m.toNat : Int) = v

/-- A built instance is not constructed again (R213, as the model reads it: log entry 8). -/
def Obligations.BuiltInstanceIsNotRebuilt : Prop :=
  ∀ s m v rest, s.codec = .built m → s.requests = .construct v :: rest → step s = .refused .alreadyBuilt

/-! ## Numbers -/

/-- R10: `trunc` is toward zero. -/
def Obligations.TruncationIsTowardZero : Prop :=
  ∀ q : Rat, |(trunc q : Rat)| ≤ |q| ∧ |q| < |(trunc q : Rat)| + 1 ∧ (0 ≤ q → 0 ≤ trunc q) ∧ (q ≤ 0 → trunc q ≤ 0)

/-- R12: the binary64 product is rounded to nearest, ties to even. Of two finite values with exact product `z`, the
result is a finite value no further from `z` than any other, and even in its last place where another is as near; where
`z` is at or past the midpoint beyond the largest finite value, it is the infinity of `z`'s sign. -/
def Obligations.ProductIsCorrectlyRounded : Prop :=
  ∀ a b x y, Float64.value a = .fin x → Float64.value b = .fin y →
    (|x * y| < (2 ^ 54 - 1) * 2 ^ 970 →
      ∃ p, Float64.value (Float64.mul a b) = .fin p ∧
        (∀ w r, Float64.value w = .fin r → |p - x * y| ≤ |r - x * y|) ∧
        (∀ w r, Float64.value w = .fin r → r ≠ p → |r - x * y| = |p - x * y| →
          (Float64.mul a b).toNat % 2 = 0)) ∧
    ((2 ^ 54 - 1) * 2 ^ 970 ≤ |x * y| →
      Float64.value (Float64.mul a b) = .inf (decide (x * y < 0)))

/-- R12: the constants written 0.1 and 0.01 are the binary64 values nearest to them. -/
def Obligations.DecimalConstantsAreNearest : Prop :=
  (∃ p, Float64.value stPosScale.float = .fin p ∧
    ∀ w r, Float64.value w = .fin r → |p - 1 / 10| ≤ |r - 1 / 10|) ∧
  (∃ p, Float64.value stCurScale.float = .fin p ∧
    ∀ w r, Float64.value w = .fin r → |p - 1 / 100| ≤ |r - 1 / 100|)

/-- R12: the integer constants are exact in binary64, and so is every raw status field (R154). -/
def Obligations.IntegersConvertExactly : Prop :=
  ∀ n : Int, |n| ≤ 2 ^ 53 → Float64.value (Float64.ofInt n) = .fin (n : Rat)

/-- R12, under ARITH = exact: `fmul` is exact multiplication. -/
def Obligations.ExactProductIsExact : Prop :=
  ∀ q c, fmul (.exact q) c = .exact (q * c.exact)

/-- R102: a multiplication by 1 is exact, so setVelocity does not scale. -/
def Obligations.ProductByOneIsTheValue : Prop :=
  ∀ x q, numeric x = .fin q → numeric (fmul x (Scale.ofNat 1)) = .fin q

/-- R102: `conv32` gives the truncated product exactly where the value and the product are numbers and the truncation
fits int32; everything else is Unrepresentable, with the parameter's name and value. -/
def Obligations.Conv32TruncatesOrRaises : Prop :=
  ∀ x c name,
    (∀ p, ScaledTo x c p → -2147483649 < p → p < 2147483648 → conv32 x c name = .ok (trunc p)) ∧
    ((¬ ∃ p, ScaledTo x c p ∧ -2147483649 < p ∧ p < 2147483648) →
      conv32 x c name = .error (.unrepresentable name (.real x)))

/-- R103: `conv16` divides by 10 toward zero; the representable inputs are -327689 to 327679, and every other is
Unrepresentable. -/
def Obligations.Conv16DividesTowardZero : Prop :=
  ∀ k name,
    (-327689 ≤ k → k ≤ 327679 → conv16 k name = .ok (trunc ((k : Rat) / 10))) ∧
    (k < -327689 ∨ 327679 < k → conv16 k name = .error (.unrepresentable name (.int k)))

/-- R104: a symmetric bound check passes exactly the numbers between the bounds, both included; NaN and the infinities
fail it. The one-sided check passes the numbers from the bound up and the positive infinity; NaN fails it. `-0.0`
passes both. -/
def Obligations.BoundChecksAreInclusive : Prop :=
  (∀ x (b : Int), within x b = true ↔ ∃ q, numeric x = .fin q ∧ -(b : Rat) ≤ q ∧ q ≤ b) ∧
  (∀ x (b : Int), atLeast b x = true ↔ (∃ q, numeric x = .fin q ∧ (b : Rat) ≤ q) ∨ numeric x = .inf false) ∧
  (within (.binary64 0x8000000000000000#64) dutyMax = true ∧ atLeast 0 (.binary64 0x8000000000000000#64) = true)

/-! ## The seven commands -/

/-- R110 -/
def Obligations.SetDutyCycleEmitsOrRaises : Prop :=
  ∀ s m x, s.codec = .built m →
    (∀ q, numeric x = .fin q → -1 ≤ q → q ≤ 1 →
      ∃ p t, ScaledTo x 100000 p ∧ |trunc p| ≤ 100000 ∧ exec (.setDutyCycle x) s = .next t ∧
        Emits s t (commandFrame m .dutyCycle (p4 (trunc p)))) ∧
    ((¬ ∃ q, numeric x = .fin q ∧ -1 ≤ q ∧ q ≤ 1) →
      ∃ t, exec (.setDutyCycle x) s = .next t ∧ Reports s t (.err (.outOfRange .duty (.real x))))

/-- R111 -/
def Obligations.SetCurrentEmitsOrRaises : Prop :=
  ∀ s m x, s.codec = .built m →
    (∀ p, ScaledTo x 1000 p → -2147483649 < p → p < 2147483648 →
      ∃ t, exec (.setCurrent x) s = .next t ∧ Emits s t (commandFrame m .currentLoop (p4 (trunc p)))) ∧
    ((¬ ∃ p, ScaledTo x 1000 p ∧ -2147483649 < p ∧ p < 2147483648) →
      ∃ t, exec (.setCurrent x) s = .next t ∧ Reports s t (.err (.unrepresentable .current (.real x))))

/-- R112 -/
def Obligations.SetBrakeCurrentEmitsOrRaises : Prop :=
  ∀ s m x, s.codec = .built m →
    (∀ q p, numeric x = .fin q → 0 ≤ q → ScaledTo x 1000 p → p < 2147483648 →
      ∃ t, exec (.setBrakeCurrent x) s = .next t ∧ Emits s t (commandFrame m .currentBrake (p4 (trunc p)))) ∧
    ((numeric x = .nan ∨ numeric x = .inf true ∨ ∃ q, numeric x = .fin q ∧ q < 0) →
      ∃ t, exec (.setBrakeCurrent x) s = .next t ∧ Reports s t (.err (.outOfRange .current (.real x)))) ∧
    ((numeric x = .inf false ∨
        ∃ q, numeric x = .fin q ∧ 0 ≤ q ∧ ¬ ∃ p, ScaledTo x 1000 p ∧ p < 2147483648) →
      ∃ t, exec (.setBrakeCurrent x) s = .next t ∧ Reports s t (.err (.unrepresentable .current (.real x))))

/-- R113: no scaling, so the field is the truncated parameter itself. -/
def Obligations.SetVelocityEmitsOrRaises : Prop :=
  ∀ s m x, s.codec = .built m →
    (∀ q, numeric x = .fin q → -2147483649 < q → q < 2147483648 →
      ∃ t, exec (.setVelocity x) s = .next t ∧ Emits s t (commandFrame m .velocityLoop (p4 (trunc q)))) ∧
    ((¬ ∃ q, numeric x = .fin q ∧ -2147483649 < q ∧ q < 2147483648) →
      ∃ t, exec (.setVelocity x) s = .next t ∧ Reports s t (.err (.unrepresentable .rpm (.real x))))

/-- R114 -/
def Obligations.SetPositionEmitsOrRaises : Prop :=
  ∀ s m x, s.codec = .built m →
    (∀ q, numeric x = .fin q → -36000 ≤ q → q ≤ 36000 →
      ∃ p t, ScaledTo x 10000 p ∧ |trunc p| ≤ 360000000 ∧ exec (.setPosition x) s = .next t ∧
        Emits s t (commandFrame m .positionLoop (p4 (trunc p)))) ∧
    ((¬ ∃ q, numeric x = .fin q ∧ -36000 ≤ q ∧ q ≤ 36000) →
      ∃ t, exec (.setPosition x) s = .next t ∧ Reports s t (.err (.outOfRange .degrees (.real x))))

/-- R115 -/
def Obligations.SetOriginEmitsItsByte : Prop :=
  ∀ s m b, s.codec = .built m →
    ∃ t, exec (.setOrigin b) s = .next t ∧ Emits s t (commandFrame m .setOrigin [if b then 0x01 else 0x00])

/-- R116, R186: the three fields, and the checks in order: the degrees bound first, then rpm, then acceleration; each
clause holds whatever the later parameters are. -/
def Obligations.SetPositionVelocityEmitsOrRaises : Prop :=
  ∀ s m x (rpm acc : Int), s.codec = .built m →
    (∀ q, numeric x = .fin q → -36000 ≤ q → q ≤ 36000 →
      -327689 ≤ rpm → rpm ≤ 327679 → -327689 ≤ acc → acc ≤ 327679 →
      ∃ p t, ScaledTo x 10000 p ∧ |trunc p| ≤ 360000000 ∧ exec (.setPositionVelocity x rpm acc) s = .next t ∧
        Emits s t (commandFrame m .positionVelocityLoop (p8 (trunc p) (rpm.tdiv 10) (acc.tdiv 10)))) ∧
    ((¬ ∃ q, numeric x = .fin q ∧ -36000 ≤ q ∧ q ≤ 36000) →
      ∃ t, exec (.setPositionVelocity x rpm acc) s = .next t ∧
        Reports s t (.err (.outOfRange .degrees (.real x)))) ∧
    (∀ q, numeric x = .fin q → -36000 ≤ q → q ≤ 36000 → rpm < -327689 ∨ 327679 < rpm →
      ∃ t, exec (.setPositionVelocity x rpm acc) s = .next t ∧
        Reports s t (.err (.unrepresentable .rpm (.int rpm)))) ∧
    (∀ q, numeric x = .fin q → -36000 ≤ q → q ≤ 36000 → -327689 ≤ rpm → rpm ≤ 327679 →
      acc < -327689 ∨ 327679 < acc →
      ∃ t, exec (.setPositionVelocity x rpm acc) s = .next t ∧
        Reports s t (.err (.unrepresentable .acceleration (.int acc))))

/-- R106: all or nothing. An encoder operation on a built instance either hands over exactly one frame, of its own tag,
with its own MOTOR_ID and a payload the tag's format allows, or reports one error and does nothing else. -/
def Obligations.EncoderIsAllOrNothing : Prop :=
  ∀ i mode s m t, i.mode? = some mode → s.codec = .built m → exec i s = .next t →
    (∃ bs, payloadAllowed mode bs = true ∧ Emits s t (commandFrame m mode bs)) ∨
    (∃ e, Reports s t (.err e))

/-- R180: which operation raises which error. No operation raises InvalidIdentifier; only the four operations with a
bound raise OutOfRange; setDutyCycle, setPosition, setOrigin and readStatus never raise Unrepresentable. The codes are
the table's. -/
def Obligations.ErrorsAreThoseOfTheTable : Prop :=
  ∀ i s t e, exec i s = .next t → t.results = s.results ++ [.err e] →
    match e with
    | .invalidIdentifier _ => False
    | .outOfRange _ _ =>
      errorCode e = 2 ∧
        ((∃ x, i = .setDutyCycle x) ∨ (∃ x, i = .setBrakeCurrent x) ∨ (∃ x, i = .setPosition x) ∨
          ∃ x k a, i = .setPositionVelocity x k a)
    | .unrepresentable _ _ =>
      errorCode e = 3 ∧
        ((∃ x, i = .setCurrent x) ∨ (∃ x, i = .setBrakeCurrent x) ∨ (∃ x, i = .setVelocity x) ∨
          ∃ x k a, i = .setPositionVelocity x k a)
    | .transportError _ => errorCode e = 4

/-- R184, R105: where `send` or `receive` fails, the result is the transport's error unmodified, and whether the frame
reached the bus makes no difference to the block. -/
def Obligations.TransportErrorsPassUnmodified : Prop :=
  (∀ i s m e reached rest f t, s.codec = .built m → s.tx = .failed e reached :: rest → exec i s = .next t →
    t.sends = s.sends ++ [f] →
    f.answer = .failed e reached ∧ t.results = s.results ++ [.err (.transportError e)] ∧ t.codec = s.codec) ∧
  (∀ timeout s m e rest, s.codec = .built m → s.rx = .failed e :: rest →
    ∃ t, exec (.readStatus timeout) s = .next t ∧
      Receives s t timeout (.failed e) (.err (.transportError e)))

/-- An operation that a command frame carries whole, and whose bound check passes, hands over that very frame: the
encoder and the decoder of instruction words agree with what the machine emits. Which operations a frame carries whole
is the model's choice (log entry 3): binary64 operands are none of them, and the statements of the seven commands cover
those. -/
def Obligations.WellFormedOperationEmitsItsEncoding : Prop :=
  ∀ s m i, s.codec = .built m → i.wellFormed = true → InBounds i →
    ∃ f t, encode m i = some f ∧ exec i s = .next t ∧ Emits s t f

/-! ## readStatus -/

/-- R151, R152: no data where nothing arrived or fewer than 8 bytes did; any payload of eight bytes or more is decoded
from its first eight, whatever follows, into the raw fields and their values scaled by the constants of R154. One
`receive` is made and nothing else changes. -/
def Obligations.ReadStatusClassifiesAndDecodes : Prop :=
  ∀ s m timeout, s.codec = .built m →
    (NextReceive s .absent →
      ∃ t, exec (.readStatus timeout) s = .next t ∧ Receives s t timeout .absent .noData) ∧
    (∀ bs, NextReceive s (.frame bs) → bs.length < 8 →
      ∃ t, exec (.readStatus timeout) s = .next t ∧ Receives s t timeout (.frame bs) .noData) ∧
    (∀ b0 b1 b2 b3 b4 b5 b6 b7 rest,
      NextReceive s (.frame (b0 :: b1 :: b2 :: b3 :: b4 :: b5 :: b6 :: b7 :: rest)) →
      ∃ t, exec (.readStatus timeout) s = .next t ∧
        Receives s t timeout (.frame (b0 :: b1 :: b2 :: b3 :: b4 :: b5 :: b6 :: b7 :: rest))
          (.status
            { position := fmul (ofInt s.arith (signed16 b0 b1)) stPosScale
              speed := fmul (ofInt s.arith (signed16 b2 b3)) stSpeedScale
              current := fmul (ofInt s.arith (signed16 b4 b5)) stCurScale
              temperature := b6.toInt
              errorCode := b7.toNat }
            (rawOf b0 b1 b2 b3 b4 b5 b6 b7)))

/-- R154: speed is exact in both number domains, and under ARITH = exact so are position and current; every output is
of the domain ARITH; temperature and error code are unscaled. -/
def Obligations.StatusScalingValues : Prop :=
  (∀ a raw, -32768 ≤ raw.speedRaw → raw.speedRaw ≤ 32767 →
    numeric (scaleStatus a raw).speed = .fin (raw.speedRaw * 10)) ∧
  (∀ raw, numeric (scaleStatus .exact raw).position = .fin ((raw.posRaw : Rat) / 10) ∧
    numeric (scaleStatus .exact raw).current = .fin ((raw.curRaw : Rat) / 100)) ∧
  (∀ a raw, (scaleStatus a raw).position.inDomain a = true ∧ (scaleStatus a raw).speed.inDomain a = true ∧
    (scaleStatus a raw).current.inDomain a = true) ∧
  (∀ a raw, (scaleStatus a raw).temperature = raw.temp ∧ (scaleStatus a raw).errorCode = raw.err)

/-- R153, R150: the decoding depends on the transport's answer alone: not on MOTOR_ID, not on the timeout, not on
anything sent or received before. Two instances given the same answer report the same result;
which result it is, ReadStatusClassifiesAndDecodes and TransportErrorsPassUnmodified state. -/
def Obligations.DecodingDependsOnTheAnswerAlone : Prop :=
  ∀ s s' m m' w w' a, s.codec = .built m → s'.codec = .built m' → s.arith = s'.arith →
    NextReceive s a → NextReceive s' a →
    ∃ t t' r, exec (.readStatus w) s = .next t ∧ exec (.readStatus w') s' = .next t' ∧
      Receives s t w a r ∧ Receives s' t' w' a r

/-- R156: on a built instance readStatus reports an error exactly where the transport's `receive` itself failed, and
then that error, unmodified; on an Unbuilt one it reports none. -/
def Obligations.DecodeNeverRaises : Prop :=
  ∀ s t timeout e, exec (.readStatus timeout) s = .next t →
    (t.results = s.results ++ [.err e] ↔
      ∃ m e', s.codec = .built m ∧ NextReceive s (.failed e') ∧ e = .transportError e')

/-- R32: the timeout reaches the transport's `receive` unchanged, and without one the transport waits RX_TIMEOUT,
whatever that is. -/
def Obligations.ReceiveTimeoutPassesThrough : Prop :=
  ∀ s m w, s.codec = .built m →
    ∃ t c, exec (.readStatus w) s = .next t ∧ t.receives = s.receives ++ [c] ∧ c.timeout = w ∧
      (∀ d, w = some d → waitOf c = d) ∧ (w = none → waitOf c = Config.rxTimeout)

/-! ## Invariants of the machine's history -/

/-- The invariant holds at reset. -/
def Obligations.ResetHasTheInvariant : Prop := Inv State.reset

/-- R41, R60, R63, R69: every step keeps that every frame ever handed to `send` is one of the map, with the instance's
MOTOR_ID in it; so an Unbuilt instance has sent nothing. -/
def Obligations.StepKeepsFramesLegal : Prop :=
  ∀ s t, FramesLegal s → step s = .next t → FramesLegal t

/-- R48, R106: every step keeps that the caller's `Ok` results and the frames `send` accepted agree, one for one and in
order. -/
def Obligations.StepKeepsHistoryAgreement : Prop :=
  ∀ s t, HistoryAgrees s → step s = .next t → HistoryAgrees t

/-- R155: every step keeps that every status ever reported has its raw fields, temperature and error code in range. -/
def Obligations.StepKeepsStatusInRange : Prop :=
  ∀ s t, StatusInRange s → step s = .next t → StatusInRange t

/-- R48: nothing observed is ever reordered or lost: over any number of transactions the frames handed over before
stay a prefix of the frames handed over, and the results likewise. -/
def Obligations.RunOnlyExtendsTheObservation : Prop :=
  ∀ k (s t : State), Sys2Proof.core.run k s = .next t → s.sends <+: t.sends ∧ s.results <+: t.results

/-! ## Several instances -/

/-- R33: instances share no state: a transaction of one leaves every other as it was. -/
def Obligations.InstancesAreIndependent : Prop :=
  ∀ k y y', stepBlock k y = .next y' → ∀ j, j ≠ k → y'.blocks[j]? = y.blocks[j]?

/-- R46: a transaction is atomic: it puts at most one frame on the common record, whole and under its own instance. -/
def Obligations.TransactionsAreAtomic : Prop :=
  ∀ k y y', stepBlock k y = .next y' → y'.wire = y.wire ∨ ∃ f, y'.wire = y.wire ++ [(k, f)]

/-- R48, D12: two instances' transactions may be taken in either order: both orders complete, leave every instance the
same, and hand over the same frames, each instance's own in the same order. -/
def Obligations.InterleavingsReachTheSameInstances : Prop :=
  ∀ k l y y1 y2, k ≠ l → stepBlock k y = .next y1 → stepBlock l y1 = .next y2 →
    ∃ z1 z2, stepBlock l y = .next z1 ∧ stepBlock k z1 = .next z2 ∧ z2.blocks = y2.blocks ∧
      z2.wire.Perm y2.wire ∧
      ∀ j, z2.wire.filter (fun e => e.1 == j) = y2.wire.filter (fun e => e.1 == j)
end

