-- ==== Sys2Proof/Laws/Bytes.lean ====
section
/-! SUPPORT. The laws of the integer, rational and byte-order primitives. -/

namespace Sys2Proof.Machine

theorem ratMul_eq (a b : Rat) : ratMul a b = a * b := by
  rw [ratMul, Rat.mkRat_eq_div]
  push_cast
  rw [mul_div_mul_comm, Rat.num_div_den, Rat.num_div_den]

theorem ratLe_iff (a b : Rat) : ratLe a b = true ↔ a ≤ b := by
  rw [ratLe, decide_eq_true_iff, Rat.le_iff]

theorem mkRat_one_eq (n : Int) : mkRat n 1 = (n : Rat) := by simp [Rat.mkRat_eq_div]

/-- `trunc` is the floor of a non-negative number and the ceiling of a non-positive one. -/
theorem trunc_of_nonneg {q : Rat} (h : 0 ≤ q) : trunc q = ⌊q⌋ := by
  rw [trunc, Rat.floor_def', Int.tdiv_eq_ediv_of_nonneg (Rat.num_nonneg.2 h)]

theorem trunc_neg (q : Rat) : trunc (-q) = -trunc q := by simp [trunc, Int.neg_tdiv]

theorem trunc_of_nonpos {q : Rat} (h : q ≤ 0) : trunc q = ⌈q⌉ := by
  rw [← neg_neg q, trunc_neg, trunc_of_nonneg (by linarith), Int.ceil_neg]

theorem trunc_intCast (n : Int) : trunc (n : Rat) = n := by simp [trunc]

/-- `trunc` lies in an integer interval around zero exactly where the number lies strictly inside the next integers
out. -/
theorem trunc_bounds_iff (q : Rat) {a b : Int} (ha : a ≤ 0) (hb : 0 ≤ b) :
    (a ≤ trunc q ∧ trunc q ≤ b) ↔ ((a : Rat) - 1 < q ∧ q < b + 1) := by
  rcases le_total 0 q with h | h
  · rw [trunc_of_nonneg h]
    have h0 : 0 ≤ ⌊q⌋ := Int.floor_nonneg.2 h
    constructor
    · rintro ⟨-, h2⟩
      refine ⟨by have : (a : Rat) ≤ 0 := mod_cast ha
                 linarith, ?_⟩
      exact_mod_cast Int.floor_lt.1 (Int.lt_add_one_of_le h2)
    · rintro ⟨-, h2⟩
      exact ⟨by omega, Int.lt_add_one_iff.1 (Int.floor_lt.2 (by exact_mod_cast h2))⟩
  · rw [trunc_of_nonpos h]
    have h0 : ⌈q⌉ ≤ 0 := Int.ceil_le.2 (by exact_mod_cast h)
    constructor
    · rintro ⟨h1, -⟩
      refine ⟨?_, by have : (0 : Rat) ≤ b := mod_cast hb
                     linarith⟩
      have : a - 1 < ⌈q⌉ := by omega
      exact_mod_cast Int.lt_ceil.1 this
    · rintro ⟨h1, -⟩
      refine ⟨?_, by omega⟩
      have : a - 1 < ⌈q⌉ := Int.lt_ceil.2 (by exact_mod_cast h1)
      omega

theorem fitsS32_iff (n : Int) : fitsS 32 n = true ↔ -2147483648 ≤ n ∧ n ≤ 2147483647 := by
  simp [fitsS]

theorem fitsS16_iff (n : Int) : fitsS 16 n = true ↔ -32768 ≤ n ∧ n ≤ 32767 := by
  simp [fitsS]

theorem fitsS32_trunc_iff (p : Rat) : fitsS 32 (trunc p) = true ↔ -2147483649 < p ∧ p < 2147483648 := by
  rw [fitsS32_iff, trunc_bounds_iff p (by norm_num) (by norm_num)]
  norm_num

/-- Two's complement loses no integer that fits its field. -/
theorem sext_tc {n : Nat} (hn : 0 < n) {v : Int} (h : fitsS n v = true) : sext (tc n v) = v := by
  simp only [fitsS, decide_eq_true_iff] at h
  obtain ⟨k, rfl⟩ : ∃ k, n = k + 1 := ⟨n - 1, by omega⟩
  simp only [Nat.add_sub_cancel] at h
  have hp : ((2 ^ (k + 1) : Nat) : Int) = 2 * 2 ^ k := by push_cast; ring
  simp only [sext, tc, BitVec.toInt_ofInt]
  apply Int.bmod_eq_of_le
  · rw [hp]; omega
  · rw [hp]; omega

theorem fitsS_sext {n : Nat} (w : BitVec n) : fitsS n (sext w) = true := by
  have h1 := BitVec.le_toInt w
  have h2 := BitVec.toInt_lt (x := w)
  have h : -(2 ^ (n - 1) : Int) ≤ w.toInt ∧ w.toInt ≤ 2 ^ (n - 1) - 1 := by omega
  exact decide_eq_true h

theorem tc_sext {n : Nat} (w : BitVec n) : tc n (sext w) = w := BitVec.ofInt_toInt

/-! ## Byte order -/

@[simp] theorem length_beBytesNat (k v : Nat) : (beBytesNat k v).length = k := by
  induction k generalizing v with
  | zero => rfl
  | succ k ih => simp [beBytesNat, ih]

theorem beWordNat_lt (bs : Payload) : beWordNat bs < 256 ^ bs.length := by
  induction bs with
  | nil => simp [beWordNat]
  | cons b bs ih =>
    have hb : b.toNat ≤ 255 := by have := b.isLt; omega
    calc b.toNat * 256 ^ bs.length + beWordNat bs
        < b.toNat * 256 ^ bs.length + 256 ^ bs.length := by omega
      _ = (b.toNat + 1) * 256 ^ bs.length := by ring
      _ ≤ 256 * 256 ^ bs.length := Nat.mul_le_mul_right _ (by omega)
      _ = 256 ^ (b :: bs).length := by rw [List.length_cons, pow_succ]; ring

theorem beWordNat_beBytesNat (k v : Nat) : beWordNat (beBytesNat k v) = v % 256 ^ k := by
  induction k generalizing v with
  | zero => simp [beBytesNat, beWordNat, Nat.mod_one]
  | succ k ih =>
    simp only [beBytesNat, beWordNat, length_beBytesNat, ih, BitVec.toNat_ofNat]
    rw [show (256 : Nat) ^ (k + 1) = 256 ^ k * 256 from pow_succ .., Nat.mod_mul]
    norm_num
    ring

theorem beBytesNat_mod (k v j : Nat) (h : k ≤ j) : beBytesNat k (v % 256 ^ j) = beBytesNat k v := by
  induction k with
  | zero => rfl
  | succ k ih =>
    simp only [beBytesNat]
    rw [ih (by omega)]
    congr 1
    apply BitVec.eq_of_toNat_eq
    simp only [BitVec.toNat_ofNat]
    obtain ⟨d, rfl⟩ : ∃ d, j = k + 1 + d := ⟨j - (k + 1), by omega⟩
    have h1 : 256 ^ (k + 1 + d) = 256 ^ k * (256 * 256 ^ d) := by rw [pow_add, pow_succ]; ring
    rw [h1, Nat.mod_mul_right_div_self, show (2 : Nat) ^ 8 = 256 by norm_num, Nat.mod_mul_right_mod]

theorem beBytesNat_beWordNat (bs : Payload) : beBytesNat bs.length (beWordNat bs) = bs := by
  induction bs with
  | nil => rfl
  | cons b bs ih =>
    simp only [List.length_cons, beBytesNat, beWordNat]
    have hlt := beWordNat_lt bs
    have hpos : 0 < 256 ^ bs.length := by positivity
    congr 1
    · rw [Nat.mul_comm, Nat.mul_add_div hpos, Nat.div_eq_of_lt hlt]
      simp
    · rw [← beBytesNat_mod bs.length _ bs.length le_rfl, Nat.mul_add_mod', Nat.mod_eq_of_lt hlt, ih]

end Sys2Proof.Machine
end

