-- ==== Sys2Proof/Laws/State.lean ====
section
/-! SUPPORT. What each shared operation does to each field of State, and what each does as a whole. -/

namespace Sys2Proof.Machine

@[simp] theorem report_codec (r : Result) (s : State) : (report r s).codec = s.codec := rfl
@[simp] theorem report_arith (r : Result) (s : State) : (report r s).arith = s.arith := rfl
@[simp] theorem report_requests (r : Result) (s : State) : (report r s).requests = s.requests := rfl
@[simp] theorem report_rx (r : Result) (s : State) : (report r s).rx = s.rx := rfl
@[simp] theorem report_tx (r : Result) (s : State) : (report r s).tx = s.tx := rfl
@[simp] theorem report_drawn (r : Result) (s : State) : (report r s).drawn = s.drawn := rfl
@[simp] theorem report_sends (r : Result) (s : State) : (report r s).sends = s.sends := rfl
@[simp] theorem report_receives (r : Result) (s : State) : (report r s).receives = s.receives := rfl
@[simp] theorem report_results (r : Result) (s : State) : (report r s).results = s.results ++ [r] := rfl

@[simp] theorem emit_codec (f : Frame) (s : State) : (emit f s).codec = s.codec := rfl
@[simp] theorem emit_arith (f : Frame) (s : State) : (emit f s).arith = s.arith := rfl
@[simp] theorem emit_requests (f : Frame) (s : State) : (emit f s).requests = s.requests := rfl
@[simp] theorem emit_rx (f : Frame) (s : State) : (emit f s).rx = s.rx := rfl
@[simp] theorem emit_tx (f : Frame) (s : State) : (emit f s).tx = s.tx.tail := rfl
@[simp] theorem emit_sends (f : Frame) (s : State) :
    (emit f s).sends = s.sends ++ [{ frame := f, answer := sendAnswer s }] := rfl
@[simp] theorem emit_receives (f : Frame) (s : State) : (emit f s).receives = s.receives := rfl
@[simp] theorem emit_results (f : Frame) (s : State) : (emit f s).results = s.results := rfl

@[simp] theorem receive_codec (w : Option Duration) (s : State) : (receive w s).codec = s.codec := rfl
@[simp] theorem receive_arith (w : Option Duration) (s : State) : (receive w s).arith = s.arith := rfl
@[simp] theorem receive_requests (w : Option Duration) (s : State) : (receive w s).requests = s.requests := rfl
@[simp] theorem receive_rx (w : Option Duration) (s : State) : (receive w s).rx = s.rx.tail := rfl
@[simp] theorem receive_tx (w : Option Duration) (s : State) : (receive w s).tx = s.tx := rfl
@[simp] theorem receive_sends (w : Option Duration) (s : State) : (receive w s).sends = s.sends := rfl
@[simp] theorem receive_receives (w : Option Duration) (s : State) :
    (receive w s).receives = s.receives ++ [{ timeout := w, answer := receiveAnswer s }] := rfl
@[simp] theorem receive_results (w : Option Duration) (s : State) : (receive w s).results = s.results := rfl

/-- The answer a `send` gets is the one NextSend describes. -/
theorem nextSend_iff (s : State) (a : SendAnswer) : NextSend s a ↔ a = sendAnswer s := by
  unfold NextSend sendAnswer
  cases s.tx <;> simp [eq_comm]

/-- The answer a `receive` gets is the one NextReceive describes. -/
theorem nextReceive_iff (s : State) (a : ReceiveAnswer) : NextReceive s a ↔ a = receiveAnswer s := by
  unfold NextReceive receiveAnswer
  cases s.rx <;> simp [eq_comm]

/-- Handing a frame over is exactly an emission of it. -/
theorem emits_iff (s t : State) (f : Frame) : Emits s t f ↔ t = transmit f s := by
  constructor
  · rintro ⟨a, ha, rfl⟩
    obtain rfl := (nextSend_iff s a).1 ha
    cases h : sendAnswer s <;> simp [transmit, report, emit, sendResult, h]
  · rintro rfl
    exact ⟨_, (nextSend_iff s _).2 rfl, by
      cases h : sendAnswer s <;> simp [transmit, report, emit, sendResult, h]⟩

theorem emits_transmit (s : State) (f : Frame) : Emits s (transmit f s) f := (emits_iff _ _ _).2 rfl

theorem reports_iff (s t : State) (r : Result) : Reports s t r ↔ t = report r s := Iff.rfl

theorem receives_iff (s t : State) (w : Option Duration) (a : ReceiveAnswer) (r : Result) :
    Receives s t w a r ↔ a = receiveAnswer s ∧ t = report r (receive w s) := by
  unfold Receives
  rw [nextReceive_iff]
  constructor
  · rintro ⟨rfl, rfl⟩; exact ⟨rfl, rfl⟩
  · rintro ⟨rfl, rfl⟩; exact ⟨rfl, rfl⟩

end Sys2Proof.Machine
end

