-- ==== Sys2Proof/Laws/Step.lean ====
section
/-! SUPPORT. What a transaction can do, said once for each pipeline and for the step. -/

namespace Sys2Proof.Machine

/-- What one transaction can do to the state it runs in. -/
inductive Effect (s : State) : State → Prop where
  /-- A result is reported and nothing else changes; the result is no `Ok` frame and no status. -/
  | reported (r : Result) (hok : ∀ f, r ≠ .ok f) (hst : ∀ p raw, r ≠ .status p raw) : Effect s (report r s)
  /-- One command frame of the instance is handed over, with a payload of its tag's format. -/
  | sent (m : MotorId) (mode : ServoMode) (bs : Payload) (hm : s.codec = .built m)
      (hbs : payloadAllowed mode bs = true) : Effect s (transmit (commandFrame m mode bs) s)
  /-- One `receive`, on a built instance. -/
  | received (w : Option Duration) (m : MotorId) (hm : s.codec = .built m) :
      Effect s (report (decodeAnswer s.arith (receiveAnswer s)) (receive w s))

@[simp] theorem p4_length (n : Int) : (p4 n).length = 4 := length_beBytesNat _ _

@[simp] theorem p8_length (a b c : Int) : (p8 a b c).length = 8 := by
  simp [p8, beBytes32, beBytes16]

theorem p1_allowed (b : Bool) : payloadAllowed .setOrigin (p1 b) = true := by cases b <;> decide

/-- `pack` of an encoder operation; readStatus packs nothing. -/
def packOf : Instr → Option (Except Error (ServoMode × Payload))
  | .setDutyCycle x => some (packDutyCycle x)
  | .setCurrent x => some (packCurrent x)
  | .setBrakeCurrent x => some (packBrakeCurrent x)
  | .setVelocity x => some (packVelocity x)
  | .setPosition x => some (packPosition x)
  | .setOrigin b => some (packOrigin b)
  | .setPositionVelocity x k a => some (packPositionVelocity x k a)
  | .readStatus _ => none

/-- An encoder operation is the common pipeline over its `pack`. -/
theorem exec_of_pack {i : Instr} {p} (h : packOf i = some p) (s : State) : exec i s = encodeTransaction p s := by
  cases i <;> simp only [packOf, Option.some.injEq, reduceCtorEq] at h <;> subst h <;> rfl

/-- What `pack` gives has the operation's tag and a payload of the tag's format. -/
theorem packOf_ok {i : Instr} {mode : ServoMode} {bs : Payload} (h : packOf i = some (.ok (mode, bs))) :
    i.mode? = some mode ∧ payloadAllowed mode bs = true := by
  cases i with
  | readStatus _ => simp [packOf] at h
  | setOrigin b =>
    simp only [packOf, packOrigin, Option.some.injEq, Except.ok.injEq, Prod.mk.injEq] at h
    obtain ⟨rfl, rfl⟩ := h
    exact ⟨rfl, p1_allowed b⟩
  | _ =>
    simp only [packOf, packDutyCycle, packCurrent, packBrakeCurrent, packVelocity, packPosition,
      packPositionVelocity, Option.some.injEq] at h
    repeat' split at h
    all_goals first
      | (simp only [reduceCtorEq] at h)
      | (simp only [Except.ok.injEq, Prod.mk.injEq] at h
         obtain ⟨rfl, rfl⟩ := h
         exact ⟨rfl, by simp [payloadAllowed, payloadLength]⟩)

theorem packOf_of_mode {i : Instr} {mode : ServoMode} (h : i.mode? = some mode) : ∃ p, packOf i = some p := by
  cases i <;> simp [packOf, Instr.mode?] at *

/-- The three ends of the encoder's pipeline. -/
theorem encodeTransaction_eq (p : Except Error (ServoMode × Payload)) (s : State) :
    (s.codec = .unbuilt ∧ encodeTransaction p s = .next (refuse s)) ∨
    (∃ m e, s.codec = .built m ∧ p = .error e ∧ encodeTransaction p s = .next (raise e s)) ∨
    (∃ m mode bs, s.codec = .built m ∧ p = .ok (mode, bs) ∧
      encodeTransaction p s = .next (transmit (commandFrame m mode bs) s)) := by
  unfold encodeTransaction
  rcases hc : s.codec with _ | m
  · exact .inl ⟨rfl, rfl⟩
  · rcases p with e | ⟨mode, bs⟩
    · exact .inr (.inl ⟨m, e, rfl, rfl, rfl⟩)
    · exact .inr (.inr ⟨m, mode, bs, rfl, rfl, rfl⟩)

/-- Every operation completes, and with one of the effects. -/
theorem exec_effect (i : Instr) (s : State) : ∃ t, exec i s = .next t ∧ Effect s t := by
  rcases hp : packOf i with _ | p
  · cases i <;> simp only [packOf, reduceCtorEq] at hp
    rename_i w
    show ∃ t, statusTransaction w s = .next t ∧ Effect s t
    unfold statusTransaction
    rcases hc : s.codec with _ | m
    · exact ⟨_, rfl, .reported _ (by simp) (by simp)⟩
    · exact ⟨_, rfl, .received w m hc⟩
  · rw [exec_of_pack hp]
    rcases encodeTransaction_eq p s with ⟨-, h⟩ | ⟨m, e, -, -, h⟩ | ⟨m, mode, bs, hm, rfl, h⟩
    · exact ⟨_, h, .reported _ (by simp) (by simp)⟩
    · exact ⟨_, h, .reported _ (by simp) (by simp)⟩
    · exact ⟨_, h, .sent m mode bs hm (packOf_ok hp).2⟩

/-- Everything a step can do where it gives a next state. -/
theorem step_cases {s t : State} (h : step s = .next t) :
    (s.requests = [] ∧ t = s) ∨
    (∃ v rest, s.requests = .construct v :: rest ∧ s.codec = .unbuilt ∧
      ((0 ≤ v ∧ v ≤ 255 ∧
          t = report .built { s with requests := rest, codec := .built (BitVec.ofInt 8 v) }) ∨
        (¬ (0 ≤ v ∧ v ≤ 255) ∧ t = raise (.invalidIdentifier v) { s with requests := rest }))) ∨
    (∃ r rest i, s.requests = r :: rest ∧ exec i { s with requests := rest } = .next t ∧
      Effect { s with requests := rest } t) := by
  unfold step accept at h
  rcases hr : s.requests with _ | ⟨r, rest⟩
  · simp only [hr, Host.Outcome.next.injEq] at h
    exact .inl ⟨rfl, h.symm⟩
  · have run (i : Instr) (h : exec i { s with requests := rest } = .next t) :
        ∃ r' rest' i, r :: rest = r' :: rest' ∧ exec i { s with requests := rest' } = .next t ∧
          Effect { s with requests := rest' } t := by
      obtain ⟨t', ht', he⟩ := exec_effect i { s with requests := rest }
      obtain rfl : t' = t := by simpa [ht'] using h
      exact ⟨r, rest, i, rfl, h, he⟩
    cases r with
    | construct v =>
      simp only [hr, construct] at h
      rcases hc : s.codec with _ | m
      · simp only [hc] at h
        refine .inr (.inl ⟨v, rest, rfl, rfl, ?_⟩)
        split at h
        · rename_i hv
          simp only [Host.Outcome.next.injEq] at h
          exact .inl ⟨hv.1, hv.2, h.symm⟩
        · rename_i hv
          simp only [Host.Outcome.next.injEq] at h
          exact .inr ⟨hv, by rw [← h]⟩
      · simp only [hc, reduceCtorEq] at h
    | call i =>
      simp only [hr] at h
      exact .inr (.inr (run i h))
    | encoded f =>
      simp only [hr] at h
      rcases hd : decodeCommand f with e | ⟨m, i⟩
      · simp only [hd, reduceCtorEq] at h
      · simp only [hd] at h
        by_cases hm : forThisInstance m s.codec = true
        · simp only [hm, if_true] at h
          exact .inr (.inr (run i h))
        · simp only [hm] at h
          simp at h

end Sys2Proof.Machine
end

