-- ==== Sys2Proof/Laws/Codec.lean ====
section
/-! SUPPORT. The laws of the identifier, of the payload fields, and of decoding and encoding a frame. -/

namespace Sys2Proof.Machine

/-! ## Identifiers -/

theorem arbId_toNat (t : BitVec 8) (m : MotorId) : (arbId t m).toNat = t.toNat * 256 + m.toNat := by
  have ht := t.isLt
  have hm := m.isLt
  have h : (arbId t m).toNat = (t.toNat <<< 8 ||| m.toNat) := by
    unfold arbId
    rw [BitVec.toNat_or, BitVec.toNat_shiftLeft, BitVec.toNat_setWidth, BitVec.toNat_setWidth,
      Nat.mod_eq_of_lt (show t.toNat < 2 ^ 32 by omega), Nat.mod_eq_of_lt (show m.toNat < 2 ^ 32 by omega),
      Nat.mod_eq_of_lt]
    rw [Nat.shiftLeft_eq]; omega
  rw [h, ← Nat.shiftLeft_add_eq_or_of_lt (by omega), Nat.shiftLeft_eq]

@[simp] theorem idTag_arbId (t : BitVec 8) (m : MotorId) : idTag (arbId t m) = t := by
  apply BitVec.eq_of_toNat_eq
  have ht := t.isLt
  have hm := m.isLt
  rw [idTag, arbId_toNat, BitVec.toNat_ofNat]
  omega

@[simp] theorem idMotor_arbId (t : BitVec 8) (m : MotorId) : idMotor (arbId t m) = m := by
  apply BitVec.eq_of_toNat_eq
  have hm := m.isLt
  rw [idMotor, arbId_toNat, BitVec.toNat_ofNat]
  omega

@[simp] theorem idUpper_arbId (t : BitVec 8) (m : MotorId) : idUpper (arbId t m) = 0 := by
  have ht := t.isLt
  have hm := m.isLt
  rw [idUpper, arbId_toNat]; omega

@[simp] theorem idOutside_arbId (t : BitVec 8) (m : MotorId) : idOutside (arbId t m) = 0 := by
  have ht := t.isLt
  have hm := m.isLt
  rw [idOutside, arbId_toNat]; omega

/-- An identifier with bits 31:16 zero is built from its own tag and motor fields. -/
theorem arbId_of_fields {id : Identifier} (h1 : idOutside id = 0) (h2 : idUpper id = 0) :
    arbId (idTag id) (idMotor id) = id := by
  apply BitVec.eq_of_toNat_eq
  rw [arbId_toNat]
  unfold idOutside at h1
  unfold idUpper at h2
  have := id.isLt
  simp only [idTag, idMotor, BitVec.toNat_ofNat]
  omega

@[simp] theorem modeOfTag_tagOf (mode : ServoMode) : modeOfTag (tagOf mode) = some mode := by
  cases mode <;> rfl

theorem tagOf_of_modeOfTag {t : BitVec 8} {mode : ServoMode} (h : modeOfTag t = some mode) : t = tagOf mode := by
  apply BitVec.eq_of_toNat_eq
  unfold modeOfTag at h
  split at h <;> first
    | (obtain rfl := Option.some.inj h; assumption)
    | (simp only [reduceCtorEq] at h)

/-- A frame the machine builds from an allowed payload is one of the map. -/
theorem commandFrame_wellFormed (m : MotorId) {mode : ServoMode} {bs : Payload} (h : payloadAllowed mode bs = true) :
    (commandFrame m mode bs).wellFormed = true := by
  simp [Frame.wellFormed, commandFrame, h]

/-- A frame of the map is the one the machine builds from its fields. -/
theorem commandFrame_of_wellFormed {f : Frame} (h : f.wellFormed = true) :
    ∃ mode, payloadAllowed mode f.payload = true ∧ f = commandFrame (idMotor f.arbitrationId) mode f.payload := by
  simp only [Frame.wellFormed, Bool.and_eq_true, beq_iff_eq] at h
  obtain ⟨⟨⟨hext, h1⟩, h2⟩, h3⟩ := h
  rcases hmode : modeOfTag (idTag f.arbitrationId) with _ | mode
  · simp [hmode] at h3
  · refine ⟨mode, by simpa [hmode] using h3, ?_⟩
    have ht := tagOf_of_modeOfTag hmode
    have := arbId_of_fields h1 h2
    rw [ht] at this
    simp only [commandFrame, this, ← hext]

/-! ## Fields -/

theorem memRead_append {n width : Nat} (pre fld post : Payload) (hn : fld.length = n) :
    memRead (pre ++ fld ++ post) pre.length n width = BitVec.ofNat width (beWordNat fld) := by
  rw [memRead, List.append_assoc, List.drop_left, ← hn, List.take_left]

/-- A field of a payload reads back what was written there. -/
theorem memRead_beBytes {k : Nat} (pre post : Payload) (w : BitVec (8 * k)) :
    memRead (pre ++ beBytesNat k w.toNat ++ post) pre.length k (8 * k) = w := by
  rw [memRead_append _ _ _ (length_beBytesNat _ _), beWordNat_beBytesNat]
  apply BitVec.eq_of_toNat_eq
  have hw := w.isLt
  have hp : (256 : Nat) ^ k = 2 ^ (8 * k) := by rw [pow_mul]; norm_num
  rw [BitVec.toNat_ofNat, hp, Nat.mod_mod, Nat.mod_eq_of_lt hw]

/-- The bytes of a field that was read are the bytes that are there. -/
theorem beBytes_memRead {k : Nat} (pre fld post : Payload) (hk : fld.length = k) :
    beBytesNat k (memRead (pre ++ fld ++ post) pre.length k (8 * k)).toNat = fld := by
  have hp : (256 : Nat) ^ k = 2 ^ (8 * k) := by rw [pow_mul]; norm_num
  have hlt := beWordNat_lt fld
  rw [hk, hp] at hlt
  rw [memRead_append _ _ _ hk, BitVec.toNat_ofNat, Nat.mod_eq_of_lt hlt, ← hk, beBytesNat_beWordNat]

/-- Reading the one field of P4. -/
theorem memRead_p4 (w : BitVec 32) : memRead (beBytes32 w) 0 4 32 = w := by
  simpa [beBytes32] using memRead_beBytes (k := 4) [] [] w

/-- The P8 payload is the three fields written into an eight-byte buffer at their offsets (R11, R43, R66). -/
theorem p8_eq_memWrite (buf : Payload) (h : buf.length = 8) (pos spd acc : Int) :
    p8 pos spd acc =
      memWrite (memWrite (memWrite buf 0 4 (tc 32 pos).toNat) 4 2 (tc 16 spd).toNat) 6 2 (tc 16 acc).toNat := by
  have : buf.drop 8 = [] := List.drop_of_length_le (by omega)
  simp [p8, memWrite, beBytes32, beBytes16, beBytesNat, this]

/-- Reading the three fields of P8. -/
theorem memRead_p8 (a : BitVec 32) (b c : BitVec 16) :
    memRead (beBytes32 a ++ beBytes16 b ++ beBytes16 c) 0 4 32 = a ∧
    memRead (beBytes32 a ++ beBytes16 b ++ beBytes16 c) 4 2 16 = b ∧
    memRead (beBytes32 a ++ beBytes16 b ++ beBytes16 c) 6 2 16 = c := by
  have h1 := memRead_beBytes (k := 4) [] (beBytes16 b ++ beBytes16 c) a
  have h2 := memRead_beBytes (k := 2) (beBytes32 a) (beBytes16 c) b
  have h3 := memRead_beBytes (k := 2) (beBytes32 a ++ beBytes16 b) [] c
  refine ⟨by simpa [beBytes32] using h1, by simpa [beBytes32, beBytes16] using h2,
    by simpa [beBytes32, beBytes16] using h3⟩

/-! ## Values that are fields -/

theorem fieldNumber_isField {s : Nat} (hs : s ≠ 0) (n : Int) :
    ratMul (mkRat n s) (mkRat s 1) = (n : Rat) := by
  have : (s : Rat) ≠ 0 := by exact_mod_cast hs
  rw [ratMul_eq, Rat.mkRat_eq_div, Rat.mkRat_eq_div]
  push_cast
  field_simp

/-- A field value encodes to the bytes of its integer. -/
theorem encodeField32_mkRat {s : Nat} (hs : s ≠ 0) {n : Int} (h : fitsS 32 n = true) :
    encodeField32 s (.exact (mkRat n s)) = some (beBytes32 (tc 32 n)) := by
  simp [encodeField32, fieldNumber_isField hs, h]

/-- What encodes is the field value of a 32-bit integer. -/
theorem encodeField32_some {s : Nat} (hs : s ≠ 0) {x : Number} {bs : Payload} (h : encodeField32 s x = some bs) :
    ∃ n, fitsS 32 n = true ∧ x = .exact (mkRat n s) ∧ bs = beBytes32 (tc 32 n) := by
  cases x with
  | binary64 w => simp [encodeField32] at h
  | exact q =>
    simp only [encodeField32] at h
    split at h
    · rename_i hc
      refine ⟨_, hc.2, ?_, (Option.some.inj h).symm⟩
      congr 1
      have hq : (((ratMul q (mkRat s 1)).num : Int) : Rat) = ratMul q (mkRat s 1) :=
        Rat.coe_int_num_of_den_eq_one hc.1
      have hs' : (s : Rat) ≠ 0 := by exact_mod_cast hs
      rw [Rat.mkRat_eq_div, hq, ratMul_eq, mkRat_one_eq]
      push_cast
      field_simp
    · simp at h

theorem isField32_eq (s : Nat) (x : Number) : x.isField32 s = (encodeField32 s x).isSome := by
  cases x with
  | binary64 w => rfl
  | exact q =>
    simp only [Number.isField32, encodeField32]
    split <;> rename_i h
    · simp [h]
    · simp only [Option.isSome_none, Bool.and_eq_false_imp, beq_iff_eq]
      exact fun h1 => by simpa using fun h2 => h ⟨h1, h2⟩

theorem encodeField16_some {k : Int} {bs : Payload} (h : encodeField16 k = some bs) :
    ∃ n, fitsS 16 n = true ∧ k = pvDiv * n ∧ bs = beBytes16 (tc 16 n) := by
  unfold encodeField16 at h
  split at h
  · rename_i hc
    exact ⟨_, hc.2, (Int.mul_ediv_cancel' (Int.dvd_of_emod_eq_zero hc.1)).symm, (Option.some.inj h).symm⟩
  · simp at h

theorem encodeField16_mul {n : Int} (h : fitsS 16 n = true) :
    encodeField16 (pvDiv * n) = some (beBytes16 (tc 16 n)) := by
  have h1 : pvDiv * n % pvDiv = 0 := Int.mul_emod_right ..
  have h2 : pvDiv * n / pvDiv = n := Int.mul_ediv_cancel_left _ (by decide)
  simp [encodeField16, h1, h2, h]

theorem isField16_eq (k : Int) : isField16 k = (encodeField16 k).isSome := by
  simp only [isField16, encodeField16]
  split <;> rename_i h
  · simp [h]
  · simp only [Option.isSome_none, Bool.and_eq_false_imp, beq_iff_eq]
    exact fun h1 => by simpa using fun h2 => h ⟨h1, h2⟩

/-! ## Decoding a frame the machine builds -/

/-- Decoding a command frame with a payload of its tag's length is decoding its operands. -/
theorem decodeCommand_commandFrame (m : MotorId) {mode : ServoMode} {bs : Payload} (h : bs.length = payloadLength mode) :
    decodeCommand (commandFrame m mode bs) =
      match decodeOperands mode bs with
      | .ok i => .ok (m, i)
      | .error e => .error e := by
  cases hd : decodeOperands mode bs <;>
    simp [decodeCommand, commandFrame, idOutside_arbId, idUpper_arbId, idTag_arbId, idMotor_arbId, modeOfTag_tagOf, h, hd]

/-- What decodes is a frame of the map, with its own motor field and the operation of its payload. -/
theorem decodeCommand_ok {f : Frame} {m : MotorId} {i : Instr} (h : decodeCommand f = .ok (m, i)) :
    ∃ mode, f = commandFrame m mode f.payload ∧ f.payload.length = payloadLength mode ∧
      decodeOperands mode f.payload = .ok i := by
  unfold decodeCommand at h
  split at h
  · simp at h
  split at h
  · simp at h
  split at h
  · simp at h
  rename_i hext h1 h2
  rcases hmode : modeOfTag (idTag f.arbitrationId) with _ | mode
  · simp [hmode] at h
  simp only [hmode] at h
  split at h
  · simp at h
  rename_i hlen
  rcases hop : decodeOperands mode f.payload with e | i'
  · simp [hop] at h
  simp only [hop, Except.ok.injEq, Prod.mk.injEq] at h
  obtain ⟨rfl, rfl⟩ := h
  refine ⟨mode, ?_, by simpa using hlen, hop⟩
  have ht := tagOf_of_modeOfTag hmode
  have hid := arbId_of_fields (by simpa using h1) (by simpa using h2)
  rw [ht] at hid
  have hext' : f.extended = true := by simpa using hext
  simp only [commandFrame, hid, ← hext']

/-! ## What readStatus reports -/

/-- readStatus never reports `Ok`, and what it reports as a status is what its payload decodes to. -/
theorem decodeAnswer_cases (a : Arith) (x : ReceiveAnswer) :
    decodeAnswer a x = .noData ∨ (∃ e, x = .failed e ∧ decodeAnswer a x = .err (.transportError e)) ∨
      ∃ bs, x = .frame bs ∧ 8 ≤ bs.length ∧ decodeAnswer a x = .status (scaleStatus a (extract bs)) (extract bs) := by
  cases x with
  | absent => exact .inl rfl
  | failed e => exact .inr (.inl ⟨e, rfl, rfl⟩)
  | frame bs =>
    by_cases h : bs.length < 8
    · exact .inl (by simp [decodeAnswer, decodePayload, h])
    · exact .inr (.inr ⟨bs, rfl, by omega, by simp [decodeAnswer, decodePayload, h]⟩)

end Sys2Proof.Machine
end

