-- ==== Sys2Proof/Laws/Float.lean ====
section
/-! SUPPORT. The laws of binary64: what a pattern's value is, and that rounding gives a nearest value, the even one of
two. -/

namespace Sys2Proof.Machine.Float64

/-- The sign as a factor. -/
def signum (neg : Bool) : Rat := if neg then -1 else 1

theorem abs_signum_mul (neg : Bool) (x : Rat) : |signum neg * x| = |x| := by cases neg <;> simp [signum]

theorem signum_mul_self (neg : Bool) : signum neg * signum neg = 1 := by cases neg <;> norm_num [signum]

theorem signum_xor (a b : Bool) : signum (a ^^ b) = signum a * signum b := by
  cases a <;> cases b <;> norm_num [signum]

/-- Powers of two around the largest exponent, by the factor they have over 2^970. -/
theorem two_zpow_eq (j : Int) : (2 : Rat) ^ (970 + j) = 2 ^ j * 2 ^ 970 := by
  rw [zpow_add₀ (by norm_num), mul_comm]
  congr 1

theorem zpow_pos' (k : Int) : (0 : Rat) < 2 ^ k := by positivity

theorem dyadic_eq (neg : Bool) (m : Nat) (e : Int) : dyadic neg m e = signum neg * (m * 2 ^ e) := by
  have hn : (if neg then -(m : Rat) else (m : Rat)) = signum neg * m := by
    cases neg <;> simp [signum]
  unfold dyadic
  by_cases h0 : m = 0
  · simp [h0]
  simp only [h0, if_false]
  by_cases h : 0 ≤ e
  · obtain ⟨k, rfl⟩ := Int.eq_ofNat_of_zero_le h
    simp only [h, if_true, Rat.mkRat_eq_div, Int.toNat_natCast, zpow_natCast]
    push_cast
    rw [hn]; ring
  · obtain ⟨k, hk⟩ := Int.eq_ofNat_of_zero_le (show 0 ≤ -e by omega)
    obtain rfl : e = -(k : Int) := by omega
    simp only [h, if_false, Rat.mkRat_eq_div, neg_neg, Int.toNat_natCast, zpow_neg, zpow_natCast]
    push_cast
    rw [hn]; field_simp

/-! ## The value of a pattern -/

/-- The value of magnitude bits below infinity. -/
def magnitudeValue (b : Nat) : Rat :=
  if b / 2 ^ 52 = 0 then (b % 2 ^ 52 : Nat) * 2 ^ (-1074 : Int)
  else (2 ^ 52 + b % 2 ^ 52 : Nat) * 2 ^ ((b / 2 ^ 52 : Nat) - 1075 : Int)

theorem toNat_pack (neg : Bool) {b : Nat} (h : b < 2 ^ 63) :
    (pack neg b).toNat = (if neg then 2 ^ 63 else 0) + b := by
  rw [pack, BitVec.toNat_ofNat]
  apply Nat.mod_eq_of_lt
  cases neg <;> (simp; try omega)

theorem negative_pack (neg : Bool) {b : Nat} (h : b < 2 ^ 63) : negative (pack neg b) = neg := by
  rw [negative, toNat_pack neg h]
  cases neg <;> (simp; try omega)

theorem exponentField_pack (neg : Bool) {b : Nat} (h : b < 2 ^ 63) : exponentField (pack neg b) = b / 2 ^ 52 := by
  rw [exponentField, toNat_pack neg h]
  cases neg <;> (simp; try omega)

theorem fraction_pack (neg : Bool) {b : Nat} (h : b < 2 ^ 63) : fraction (pack neg b) = b % 2 ^ 52 := by
  rw [fraction, toNat_pack neg h]
  cases neg <;> (simp; try omega)

theorem value_pack (neg : Bool) {b : Nat} (h : b < infinityBits) :
    value (pack neg b) = .fin (signum neg * magnitudeValue b) := by
  have hb : b < 2 ^ 63 := by unfold infinityBits at h; omega
  have he : exponentField (pack neg b) ≠ 2047 := by
    rw [exponentField_pack neg hb]; unfold infinityBits at h; omega
  have hN : isNaN (pack neg b) = false := by simp [isNaN, he]
  have hI : isInf (pack neg b) = false := by simp [isInf, he]
  rw [value, hN, hI]
  simp only [Bool.false_eq_true, if_false]
  rw [dyadic_eq, mantissa, exponent, exponentField_pack neg hb, fraction_pack neg hb, negative_pack neg hb,
    magnitudeValue]
  by_cases h0 : b / 2 ^ 52 = 0
  · rw [if_pos h0, if_pos h0, h0]
    norm_num
  · have h1 : max (b / 2 ^ 52) 1 = b / 2 ^ 52 := by omega
    simp only [h0, if_false, h1]

theorem value_pack_infinity (neg : Bool) : value (pack neg infinityBits) = .inf neg := by
  cases neg <;> decide

/-- A finite value is an integer of at most 53 bits times a power of two no smaller than the subnormal unit. -/
theorem value_fin_form {w : Binary64} {r : Rat} (h : value w = .fin r) :
    ∃ (s k : Int), |s| < 2 ^ 53 ∧ -1074 ≤ k ∧ r = s * 2 ^ k := by
  unfold value at h
  split at h
  · simp at h
  · split at h
    · simp at h
    · obtain rfl := Extended.fin.inj h
      have hm : mantissa w < 2 ^ 53 := by
        have : fraction w < 2 ^ 52 := Nat.mod_lt _ (by norm_num)
        unfold mantissa; split <;> omega
      refine ⟨(if negative w then -(mantissa w : Int) else mantissa w), exponent w, ?_, ?_, ?_⟩
      · split
        · rw [abs_neg, Nat.abs_cast]; exact_mod_cast hm
        · rw [Nat.abs_cast]; exact_mod_cast hm
      · unfold exponent; omega
      · rw [dyadic_eq]
        cases negative w <;> simp [signum]

/-- A finite value from its sign, mantissa and exponent. -/
theorem value_fin_eq {w : Binary64} {r : Rat} (h : value w = .fin r) :
    isNaN w = false ∧ isInf w = false ∧ r = signum (negative w) * (mantissa w * 2 ^ exponent w) := by
  unfold value at h
  split at h
  · simp at h
  · split at h
    · simp at h
    · rename_i h1 h2
      obtain rfl := Extended.fin.inj h
      exact ⟨by simpa using h1, by simpa using h2, dyadic_eq ..⟩

/-! ## Rounding -/

/-- Rounding to an integer errs by at most a half, and is even where it errs by exactly a half. -/
theorem roundHalfEven_spec (m k : Nat) :
    2 * |(roundHalfEven m k : Int) * 2 ^ k - m| ≤ 2 ^ k ∧
      (2 * |(roundHalfEven m k : Int) * 2 ^ k - m| = 2 ^ k → roundHalfEven m k % 2 = 0) := by
  have hdm : m = 2 ^ k * (m / 2 ^ k) + m % 2 ^ k := (Nat.div_add_mod m (2 ^ k)).symm
  have hr : m % 2 ^ k < 2 ^ k := Nat.mod_lt _ (by positivity)
  have hdm' : (m : Int) = 2 ^ k * ((m / 2 ^ k : Nat) : Int) + ((m % 2 ^ k : Nat) : Int) := by exact_mod_cast hdm
  have hr' : ((m % 2 ^ k : Nat) : Int) < 2 ^ k := by exact_mod_cast hr
  have hr0 : (0 : Int) ≤ ((m % 2 ^ k : Nat) : Int) := Int.natCast_nonneg _
  unfold roundHalfEven
  dsimp only
  split
  · rename_i h
    have h2 : (2 : Int) ^ k ≤ 2 * ((m % 2 ^ k : Nat) : Int) := by
      rcases h with h | ⟨h, -⟩
      · exact_mod_cast h.le
      · exact_mod_cast h.le
    have e : (((m / 2 ^ k + 1 : Nat) : Int) * 2 ^ k - m) = 2 ^ k - ((m % 2 ^ k : Nat) : Int) := by
      rw [Nat.cast_add, Nat.cast_one]
      linear_combination -hdm'
    rw [e, abs_of_pos (by omega)]
    refine ⟨by omega, fun heq => ?_⟩
    rcases h with h | ⟨-, h⟩
    · exfalso
      have : (2 : Int) ^ k < 2 * ((m % 2 ^ k : Nat) : Int) := by exact_mod_cast h
      omega
    · omega
  · rename_i h
    push Not at h
    have h2 : 2 * ((m % 2 ^ k : Nat) : Int) ≤ (2 : Int) ^ k := by exact_mod_cast h.1
    have e : (((m / 2 ^ k : Nat) : Int) * 2 ^ k - m) = -((m % 2 ^ k : Nat) : Int) := by
      rw [hdm']; ring
    rw [e, abs_neg, abs_of_nonneg hr0]
    refine ⟨h2, fun heq => ?_⟩
    have := h.2 (by exact_mod_cast heq.symm)
    omega

/-- The rounded units err by at most half a unit in the last place, and are even where they err by exactly that. -/
theorem roundedUnits_spec (m : Nat) (e : Int) :
    |(roundedUnits m e : Rat) * 2 ^ unitExponent m e - m * 2 ^ e| ≤ 2 ^ unitExponent m e / 2 ∧
      (|(roundedUnits m e : Rat) * 2 ^ unitExponent m e - m * 2 ^ e| = 2 ^ unitExponent m e / 2 →
        roundedUnits m e % 2 = 0) := by
  set q := unitExponent m e with hq
  have hqp := zpow_pos' q
  by_cases h : q ≤ e
  · have hu : roundedUnits m e = m * 2 ^ (e - q).toNat := by simp [roundedUnits, ← hq, h]
    obtain ⟨k, hk⟩ := Int.eq_ofNat_of_zero_le (show 0 ≤ e - q by omega)
    have he : e = k + q := by omega
    have hz : (roundedUnits m e : Rat) * 2 ^ q - m * 2 ^ e = 0 := by
      rw [hu, hk, Int.toNat_natCast, he, zpow_add₀ (by norm_num), zpow_natCast]
      push_cast; ring
    rw [hz, abs_zero]
    exact ⟨by linarith, fun h => by linarith⟩
  · have hu : roundedUnits m e = roundHalfEven m (q - e).toNat := by simp [roundedUnits, ← hq, h]
    obtain ⟨k, hk⟩ := Int.eq_ofNat_of_zero_le (show 0 ≤ q - e by omega)
    have hqe : q = k + e := by omega
    rw [hk, Int.toNat_natCast] at hu
    obtain ⟨h1, h2⟩ := roundHalfEven_spec m k
    rw [← hu] at h1 h2
    have hep := zpow_pos' e
    have e1 : (roundedUnits m e : Rat) * 2 ^ q - m * 2 ^ e
        = (((roundedUnits m e : Int) * 2 ^ k - m : Int) : Rat) * 2 ^ e := by
      rw [hqe, zpow_add₀ (by norm_num), zpow_natCast]; push_cast; ring
    have e2 : (2 : Rat) ^ q = ((2 ^ k : Int) : Rat) * 2 ^ e := by
      rw [hqe, zpow_add₀ (by norm_num), zpow_natCast]; push_cast; ring
    rw [e1, abs_mul, abs_of_pos hep, e2, ← Int.cast_abs]
    constructor
    · have h1' : ((2 * |(roundedUnits m e : Int) * 2 ^ k - m| : Int) : Rat) ≤ ((2 ^ k : Int) : Rat) :=
        Int.cast_le.2 h1
      rw [Int.cast_mul, Int.cast_ofNat] at h1'
      nlinarith
    · intro heq
      apply h2
      have : ((2 * |(roundedUnits m e : Int) * 2 ^ k - m| : Int) : Rat) = ((2 ^ k : Int) : Rat) := by
        rw [Int.cast_mul, Int.cast_ofNat]
        have hne : (2 : Rat) ^ e ≠ 0 := hep.ne'
        field_simp at heq
        linarith
      exact_mod_cast this

theorem unitExponent_ge (m : Nat) (e : Int) : -1074 ≤ unitExponent m e := le_max_right _ _

/-- The exact value is below 2^53 units. -/
theorem lt_units (m : Nat) (e : Int) : (m : Rat) * 2 ^ e < 2 ^ (53 + unitExponent m e) := by
  have hm : (m : Rat) < 2 ^ ((m.log2 : Int) + 1) := by
    have h := Nat.lt_log2_self (n := m)
    rw [show ((m.log2 : Int) + 1) = ((m.log2 + 1 : Nat) : Int) by push_cast; ring, zpow_natCast]
    exact_mod_cast h
  calc (m : Rat) * 2 ^ e < 2 ^ ((m.log2 : Int) + 1) * 2 ^ e := mul_lt_mul_of_pos_right hm (zpow_pos' e)
    _ = 2 ^ ((m.log2 : Int) + 1 + e) := (zpow_add₀ (by norm_num) _ _).symm
    _ ≤ 2 ^ (53 + unitExponent m e) := zpow_le_zpow_right₀ (by norm_num) (by unfold unitExponent; omega)

/-- Above the subnormal unit the exact value is at least 2^52 units. -/
theorem units_le {m : Nat} {e : Int} (hm : m ≠ 0) (hq : unitExponent m e ≠ -1074) :
    (2 : Rat) ^ (52 + unitExponent m e) ≤ m * 2 ^ e := by
  have h := Nat.log2_self_le hm
  have hm' : (2 : Rat) ^ (m.log2 : Int) ≤ m := by rw [zpow_natCast]; exact_mod_cast h
  calc (2 : Rat) ^ (52 + unitExponent m e) = 2 ^ ((m.log2 : Int) + e) := by
        congr 1; unfold unitExponent at hq ⊢; omega
    _ = 2 ^ (m.log2 : Int) * 2 ^ e := zpow_add₀ (by norm_num) _ _
    _ ≤ m * 2 ^ e := mul_le_mul_of_nonneg_right hm' (zpow_pos' e).le

theorem roundedUnits_le (m : Nat) (e : Int) : roundedUnits m e ≤ 2 ^ 53 := by
  have h1 := (abs_le.1 (roundedUnits_spec m e).1).2
  have h2 := lt_units m e
  have hq := zpow_pos' (unitExponent m e)
  rw [zpow_add₀ (by norm_num)] at h2
  have h3 : (roundedUnits m e : Rat) * 2 ^ unitExponent m e < (2 ^ 53 + 1) * 2 ^ unitExponent m e := by
    have : (2 : Rat) ^ (53 : Int) = 2 ^ 53 := by norm_num
    rw [this] at h2; linarith
  have h4 := lt_of_mul_lt_mul_right h3 hq.le
  have h5 : roundedUnits m e < 2 ^ 53 + 1 := by exact_mod_cast h4
  omega

theorem le_roundedUnits {m : Nat} {e : Int} (hm : m ≠ 0) (hne : unitExponent m e ≠ -1074) :
    2 ^ 52 ≤ roundedUnits m e := by
  have h1 := (abs_le.1 (roundedUnits_spec m e).1).1
  have h2 := units_le hm hne
  have hq := zpow_pos' (unitExponent m e)
  rw [zpow_add₀ (by norm_num)] at h2
  have h3 : (2 ^ 52 - 1 : Rat) * 2 ^ unitExponent m e < roundedUnits m e * 2 ^ unitExponent m e := by
    have : (2 : Rat) ^ (52 : Int) = 2 ^ 52 := by norm_num
    rw [this] at h2; linarith
  have h4 := lt_of_mul_lt_mul_right h3 hq.le
  have h5 : (2 ^ 52 - 1 : Nat) < roundedUnits m e := by
    have : ((2 ^ 52 - 1 : Nat) : Rat) < roundedUnits m e := by push_cast; linarith
    exact_mod_cast this
  omega

/-- The bits of a rounded magnitude, below infinity, have the value of its units. -/
theorem magnitudeValue_bits {u : Nat} {q : Int} (hq : -1074 ≤ q) (hu : u ≤ 2 ^ 53) (hl : q ≠ -1074 → 2 ^ 52 ≤ u) :
    magnitudeValue ((q + 1074).toNat * 2 ^ 52 + u) = u * 2 ^ q := by
  obtain ⟨k, hk⟩ := Int.eq_ofNat_of_zero_le (show 0 ≤ q + 1074 by omega)
  obtain rfl : q = (k : Int) - 1074 := by omega
  simp only [sub_add_cancel, Int.toNat_natCast]
  have hdiv : (k * 2 ^ 52 + u) / 2 ^ 52 = k + u / 2 ^ 52 := by omega
  have hmod : (k * 2 ^ 52 + u) % 2 ^ 52 = u % 2 ^ 52 := by omega
  have h2 : u / 2 ^ 52 = 0 ∨ u / 2 ^ 52 = 1 ∨ (u = 2 ^ 53 ∧ u / 2 ^ 52 = 2) := by omega
  unfold magnitudeValue
  rw [hdiv, hmod]
  rcases h2 with h | h | ⟨rfl, h⟩
  · have hk0 : k = 0 := by
      by_contra hne
      have := hl (by omega)
      omega
    subst hk0
    have : u % 2 ^ 52 = u := by omega
    rw [h, if_pos rfl, this]
    norm_num
  · have : 2 ^ 52 + u % 2 ^ 52 = u := by omega
    rw [h, if_neg (by omega), this]
    congr 2
    push_cast; ring
  · rw [h, if_neg (by omega)]
    have e1 : ((k + 2 : Nat) : Int) - 1075 = 1 + ((k : Int) - 1074) := by push_cast; ring
    rw [e1, zpow_add₀ (by norm_num)]
    norm_num
    ring

/-! ## Nearest values -/

/-- Any multiple of a unit is at least as far as one that is within half a unit, and a different one as near is exactly
half a unit away. -/
theorem nearest_multiple {x c : Rat} (hc : 0 < c) {u : Int} (hu : |u * c - x| ≤ c / 2) (j : Int) :
    |u * c - x| ≤ |j * c - x| ∧ (j ≠ u → |j * c - x| = |u * c - x| → |u * c - x| = c / 2) := by
  by_cases h : j = u
  · subst h; exact ⟨le_rfl, fun hne => absurd rfl hne⟩
  · have h1 : c ≤ |(j : Rat) * c - u * c| := by
      rw [← sub_mul, abs_mul, abs_of_pos hc]
      have : (1 : Rat) ≤ |(j : Rat) - u| := by
        have : (1 : Int) ≤ |j - u| := Int.one_le_abs (by omega)
        exact_mod_cast this
      nlinarith
    have h2 : |(j : Rat) * c - u * c| ≤ |j * c - x| + |u * c - x| := by
      have := abs_sub_le ((j : Rat) * c) x (u * c)
      rwa [abs_sub_comm x] at this
    exact ⟨by linarith, fun _ heq => by linarith⟩

/-- A multiple of the unit within half a unit of `x` is as near to `x` as any finite binary64 value, where the unit is
the subnormal one or `x` has at least 2^52 of them. -/
theorem nearest_finite {x : Rat} {q : Int} {u : Int} (hu : |u * 2 ^ q - x| ≤ (2 : Rat) ^ q / 2)
    (hx : q = -1074 ∨ (2 : Rat) ^ (52 + q) ≤ x) {w : Binary64} {r : Rat} (hw : value w = .fin r) :
    |u * 2 ^ q - x| ≤ |r - x| ∧
      (r ≠ u * 2 ^ q → |r - x| = |u * 2 ^ q - x| → |(u : Rat) * 2 ^ q - x| = 2 ^ q / 2) := by
  obtain ⟨s, k, hs, hk, rfl⟩ := value_fin_form hw
  have hqp := zpow_pos' q
  by_cases hkq : q ≤ k
  · obtain ⟨d, hd⟩ := Int.eq_ofNat_of_zero_le (show 0 ≤ k - q by omega)
    have e : (s : Rat) * 2 ^ k = ((s * 2 ^ d : Int) : Rat) * 2 ^ q := by
      rw [show k = d + q by omega, zpow_add₀ (by norm_num), zpow_natCast]; push_cast; ring
    rw [e]
    obtain ⟨h1, h2⟩ := nearest_multiple hqp hu (s * 2 ^ d)
    exact ⟨h1, fun hne => h2 fun h => hne (by rw [h])⟩
  · have hx' : (2 : Rat) ^ (52 + q) ≤ x := hx.resolve_left (by omega)
    have hsq : |(s : Rat) * 2 ^ k| < 2 ^ (52 + q) := by
      rw [abs_mul, abs_of_pos (zpow_pos' k)]
      have : |(s : Rat)| < 2 ^ (53 : Int) := by
        rw [← Int.cast_abs]; norm_num; exact_mod_cast hs
      calc |(s : Rat)| * 2 ^ k < 2 ^ (53 : Int) * 2 ^ k := mul_lt_mul_of_pos_right this (zpow_pos' k)
        _ = 2 ^ (53 + k) := (zpow_add₀ (by norm_num) _ _).symm
        _ ≤ 2 ^ (52 + q) := zpow_le_zpow_right₀ (by norm_num) (by omega)
    have hfar : x - 2 ^ (52 + q) < |(s : Rat) * 2 ^ k - x| := by
      have h1 := (abs_lt.1 hsq).2
      have h2 := neg_le_abs ((s : Rat) * 2 ^ k - x)
      linarith
    have hnear : |u * 2 ^ q - x| ≤ x - 2 ^ (52 + q) := by
      have h := (nearest_multiple hqp hu (2 ^ 52)).1
      have e : (((2 : Int) ^ 52 : Int) : Rat) * 2 ^ q = 2 ^ (52 + q) := by
        rw [zpow_add₀ (by norm_num)]; norm_num
      rwa [e, abs_sub_comm (2 ^ (52 + q)), abs_of_nonneg (by linarith : 0 ≤ x - 2 ^ (52 + q))] at h
    exact ⟨by linarith, fun _ heq => absurd heq (by linarith)⟩

theorem value_neg_exists {w : Binary64} {r : Rat} (h : value w = .fin r) : ∃ w', value w' = .fin (-r) := by
  obtain ⟨hN, hI, rfl⟩ := value_fin_eq h
  have hlt : w.toNat % 2 ^ 63 < infinityBits := by
    have h2 : exponentField w ≠ 2047 := by
      intro he
      by_cases hf : fraction w = 0 <;> simp [isNaN, isInf, he, hf] at hN hI
    unfold exponentField at h2
    unfold infinityBits
    omega
  have hb : w.toNat % 2 ^ 63 < 2 ^ 63 := Nat.mod_lt _ (by norm_num)
  have hpack : w = pack (negative w) (w.toNat % 2 ^ 63) := by
    apply BitVec.eq_of_toNat_eq
    rw [toNat_pack _ hb]
    have := w.isLt
    unfold negative
    by_cases h : 2 ^ 63 ≤ w.toNat
    · simp only [h, decide_true, if_true]; omega
    · simp only [h, decide_false, Bool.false_eq_true, if_false]; omega
  refine ⟨pack (!negative w) (w.toNat % 2 ^ 63), ?_⟩
  have h1 := value_pack (negative w) hlt
  rw [← hpack, h] at h1
  rw [value_pack _ hlt, Extended.fin.inj h1]
  congr 1
  cases negative w <;> simp [signum]

theorem value_round_zero (neg : Bool) (e : Int) : value (round neg 0 e) = .fin 0 := by
  have h : (0 : Nat) < infinityBits := by decide
  rw [round, magnitudeBits, if_pos rfl, value_pack neg h]
  norm_num [magnitudeValue]

/-- What rounding gives: below the midpoint past the largest finite value, a nearest finite value, even where another
is as near; from there on, infinity. -/
theorem round_spec (neg : Bool) (m : Nat) (e : Int) :
    ((m : Rat) * 2 ^ e < (2 ^ 54 - 1) * 2 ^ 970 →
      ∃ p, value (round neg m e) = .fin p ∧
        (∀ w r, value w = .fin r → |p - signum neg * (m * 2 ^ e)| ≤ |r - signum neg * (m * 2 ^ e)|) ∧
        (∀ w r, value w = .fin r → r ≠ p →
          |r - signum neg * (m * 2 ^ e)| = |p - signum neg * (m * 2 ^ e)| → (round neg m e).toNat % 2 = 0)) ∧
    ((2 ^ 54 - 1) * 2 ^ 970 ≤ (m : Rat) * 2 ^ e → value (round neg m e) = .inf neg) := by
  by_cases hm : m = 0
  · subst hm
    constructor
    · intro _
      refine ⟨0, value_round_zero neg e, fun w r _ => by simp, fun w r _ hne heq => ?_⟩
      simp at heq
      exact absurd heq hne
    · intro h
      rw [Nat.cast_zero, zero_mul] at h
      exact absurd h (not_le.2 (mul_pos (by norm_num) (by positivity)))
  · obtain ⟨T, hT⟩ : ∃ T : Rat, T = 2 ^ 970 := ⟨_, rfl⟩
    have hTp : 0 < T := by rw [hT]; positivity
    have hpow (j : Int) : (2 : Rat) ^ (970 + j) = 2 ^ j * T := by rw [hT]; exact two_zpow_eq j
    rw [← hT]
    set q := unitExponent m e with hq
    set u := roundedUnits m e with hu
    have hqge : -1074 ≤ q := unitExponent_ge m e
    have hule : u ≤ 2 ^ 53 := roundedUnits_le m e
    have hlu : q ≠ -1074 → 2 ^ 52 ≤ u := le_roundedUnits hm
    obtain ⟨hs1, hs2⟩ := roundedUnits_spec m e
    rw [← hq, ← hu] at hs1 hs2
    have hqp := zpow_pos' q
    have hxq : q = -1074 ∨ (2 : Rat) ^ (52 + q) ≤ m * 2 ^ e := by
      by_cases h : q = -1074
      · exact .inl h
      · exact .inr (units_le hm h)
    have hxlt : (m : Rat) * 2 ^ e < 2 ^ (53 + q) := lt_units m e
    obtain ⟨k, hk⟩ := Int.eq_ofNat_of_zero_le (show 0 ≤ q + 1074 by omega)
    have hbits : magnitudeBits m e = min (k * 2 ^ 52 + u) infinityBits := by
      rw [magnitudeBits, if_neg hm, ← hq, ← hu, hk, Int.toNat_natCast]
    -- where the bits reach infinity
    have hinf : infinityBits ≤ k * 2 ^ 52 + u ↔ (2 ^ 54 - 1) * T ≤ (m : Rat) * 2 ^ e := by
      unfold infinityBits
      rcases lt_trichotomy q 971 with h | h | h
      · constructor
        · intro hle; omega
        · intro hle
          exfalso
          have h1 : (2 : Rat) ^ (53 + q) ≤ 2 ^ (970 + 53 : Int) := zpow_le_zpow_right₀ (by norm_num) (by omega)
          rw [hpow] at h1
          norm_num at h1 hle
          linarith only [h1, hle, hxlt, hTp]
      · have hk' : k = 2045 := by omega
        subst hk'
        have hq2 : (2 : Rat) ^ q = 2 * T := by
          rw [h, show (971 : Int) = 970 + 1 by norm_num, hpow, zpow_one]
        rw [hq2] at hs1 hs2
        constructor
        · intro hle
          have hu53 : u = 2 ^ 53 := by omega
          rw [hu53] at hs1
          have := (abs_le.1 hs1).2
          push_cast at this
          linarith
        · intro hle
          have h3 := (abs_le.1 hs1).1
          have h4 : ((2 ^ 53 : Rat) - 1) * (2 * T) ≤ u * (2 * T) := by linarith
          have h5 : (2 ^ 53 : Rat) - 1 ≤ u := le_of_mul_le_mul_right h4 (by positivity)
          have h6 : (2 ^ 53 : Nat) ≤ u + 1 := by
            have : ((2 ^ 53 : Nat) : Rat) ≤ ((u + 1 : Nat) : Rat) := by
              rw [Nat.cast_pow, Nat.cast_add, Nat.cast_one, Nat.cast_ofNat]; linarith
            exact_mod_cast this
          by_contra hlt
          have hu1 : u = 2 ^ 53 - 1 := by omega
          have hu2 : (u : Rat) = 2 ^ 53 - 1 := by rw [hu1]; norm_num
          have h7 : |(u : Rat) * (2 * T) - m * 2 ^ e| = 2 * T / 2 := by
            apply le_antisymm hs1
            rw [abs_sub_comm]
            refine le_trans ?_ (le_abs_self _)
            rw [hu2]; linarith
          have := hs2 h7
          omega
      · constructor
        · intro _
          have h1 : (2 : Rat) ^ (52 + q) ≤ m * 2 ^ e := hxq.resolve_left (by omega)
          have h2 : (2 : Rat) ^ (970 + 54 : Int) ≤ 2 ^ (52 + q) := zpow_le_zpow_right₀ (by norm_num) (by omega)
          rw [hpow] at h2
          norm_num at h2 ⊢
          linarith only [h1, h2, hTp]
        · intro _
          have := hlu (by omega)
          omega
    constructor
    · intro hlt
      have hlt' : k * 2 ^ 52 + u < infinityBits := by
        by_contra h
        exact absurd (hinf.1 (by omega)) (by linarith)
      have hb : magnitudeBits m e = k * 2 ^ 52 + u := by rw [hbits]; exact min_eq_left hlt'.le
      have hmv : magnitudeValue (k * 2 ^ 52 + u) = u * 2 ^ q := by
        have := magnitudeValue_bits hqge hule hlu
        rwa [hk, Int.toNat_natCast] at this
      have hval : value (round neg m e) = .fin (signum neg * (u * 2 ^ q)) := by
        rw [round, hb, value_pack neg hlt', hmv]
      have hdist (y : Rat) : |signum neg * y - signum neg * (m * 2 ^ e)| = |y - m * 2 ^ e| := by
        rw [← mul_sub, abs_signum_mul]
      have hr (w : Binary64) (r : Rat) (hw : value w = .fin r) : ∃ w', value w' = .fin (signum neg * r) := by
        cases neg
        · exact ⟨w, by simpa [signum] using hw⟩
        · obtain ⟨w', h⟩ := value_neg_exists hw
          exact ⟨w', by simpa [signum] using h⟩
      have hback (r : Rat) : r = signum neg * (signum neg * r) := by
        rw [← mul_assoc, signum_mul_self, one_mul]
      have hs1' : |((u : Int) : Rat) * 2 ^ q - m * 2 ^ e| ≤ 2 ^ q / 2 := by exact_mod_cast hs1
      refine ⟨_, hval, fun w r hw => ?_, fun w r hw hne heq => ?_⟩
      · obtain ⟨w', hw'⟩ := hr w r hw
        rw [hdist, hback r, hdist]
        have := (nearest_finite hs1' hxq hw').1
        exact_mod_cast this
      · obtain ⟨w', hw'⟩ := hr w r hw
        rw [hdist, hback r, hdist] at heq
        have hne' : signum neg * r ≠ ((u : Int) : Rat) * 2 ^ q := by
          intro h
          apply hne
          rw [hback r, h, Int.cast_natCast]
        have h := (nearest_finite hs1' hxq hw').2 hne' (by exact_mod_cast heq)
        have hue := hs2 (by exact_mod_cast h)
        have hb63 : magnitudeBits m e < 2 ^ 63 := by
          rw [hb]; unfold infinityBits at hlt'; omega
        rw [round, toNat_pack neg hb63, hb]
        cases neg <;> (simp; try omega)
    · intro hle
      have : magnitudeBits m e = infinityBits := by rw [hbits]; exact min_eq_right (hinf.2 hle)
      rw [round, this, value_pack_infinity]

/-- A representable value is rounded to itself. -/
theorem round_exact {neg : Bool} {m : Nat} {e : Int} {w : Binary64}
    (hw : value w = .fin (signum neg * (m * 2 ^ e))) : value (round neg m e) = .fin (signum neg * (m * 2 ^ e)) := by
  have hlt : (m : Rat) * 2 ^ e < (2 ^ 54 - 1) * 2 ^ 970 := by
    by_contra h
    obtain ⟨hN, hI, hv⟩ := value_fin_eq hw
    have h1 : |signum neg * ((m : Rat) * 2 ^ e)| = m * 2 ^ e := by
      rw [abs_signum_mul, abs_of_nonneg (mul_nonneg (Nat.cast_nonneg m) (zpow_pos' e).le)]
    rw [hv, abs_signum_mul, abs_of_nonneg (mul_nonneg (Nat.cast_nonneg _) (zpow_pos' _).le)] at h1
    have he : exponentField w ≤ 2046 := by
      have h2 : exponentField w ≠ 2047 := by
        intro he
        by_cases hf : fraction w = 0 <;> simp [isNaN, isInf, he, hf] at hN hI
      have : exponentField w < 2048 := Nat.mod_lt _ (by norm_num)
      omega
    have hm : (mantissa w : Rat) ≤ 2 ^ 53 - 1 := by
      have : fraction w < 2 ^ 52 := Nat.mod_lt _ (by norm_num)
      have h3 : mantissa w ≤ 2 ^ 53 - 1 := by unfold mantissa; split <;> omega
      have : (mantissa w : Rat) ≤ ((2 ^ 53 - 1 : Nat) : Rat) := by exact_mod_cast h3
      push_cast at this
      linarith
    have h4 : (2 : Rat) ^ exponent w ≤ 2 ^ (970 + 1 : Int) :=
      zpow_le_zpow_right₀ (by norm_num) (by unfold exponent; omega)
    rw [two_zpow_eq, zpow_one] at h4
    have h5 : (mantissa w : Rat) * 2 ^ exponent w ≤ (2 ^ 53 - 1) * (2 * 2 ^ 970) :=
      mul_le_mul hm h4 (zpow_pos' _).le (by norm_num)
    rw [h1] at h5
    have hTp : (0 : Rat) < 2 ^ 970 := by positivity
    generalize (2 : Rat) ^ 970 = T at h h5 hTp
    norm_num at h h5
    linarith
  obtain ⟨p, hp, hn, -⟩ := (round_spec neg m e).1 hlt
  have := hn w _ hw
  rw [sub_self, abs_zero] at this
  rw [hp, sub_eq_zero.1 (abs_eq_zero.1 (le_antisymm this (abs_nonneg _)))]

/-- Integers of at most 53 bits, and 2^53, are binary64 values. -/
theorem value_ofInt {n : Int} (h : |n| ≤ 2 ^ 53) : value (ofInt n) = .fin (n : Rat) := by
  have hz : (n : Rat) = signum (decide (n < 0)) * ((n.natAbs : Rat) * 2 ^ (0 : Int)) := by
    rw [zpow_zero, mul_one, Nat.cast_natAbs]
    rcases lt_or_ge n 0 with h | h
    · simp [signum, h, abs_of_neg]
    · simp [signum, not_lt.2 h, abs_of_nonneg h]
  by_cases h0 : n = 0
  · subst h0; decide
  rw [Int.abs_eq_natAbs] at h
  by_cases h53 : n.natAbs = 2 ^ 53
  · rcases Int.natAbs_eq n with hn | hn <;> rw [hn, h53] <;> decide
  have hm : n.natAbs ≠ 0 := by omega
  have hlt : n.natAbs < 2 ^ 53 := by omega
  have hlog : n.natAbs.log2 < 53 := (Nat.log2_lt hm).2 hlt
  have hq : unitExponent n.natAbs 0 ≤ 0 := by unfold unitExponent; omega
  have hu : ((roundedUnits n.natAbs 0 : Nat) : Rat) * 2 ^ unitExponent n.natAbs 0 = n.natAbs := by
    obtain ⟨k, hk⟩ := Int.eq_ofNat_of_zero_le (show 0 ≤ 0 - unitExponent n.natAbs 0 by omega)
    rw [roundedUnits, if_pos hq, hk, Int.toNat_natCast,
      show unitExponent n.natAbs 0 = -(k : Int) by omega, zpow_neg, zpow_natCast]
    push_cast
    field_simp
  have hbits : (unitExponent n.natAbs 0 + 1074).toNat * 2 ^ 52 + roundedUnits n.natAbs 0 < infinityBits := by
    have := roundedUnits_le n.natAbs 0
    unfold infinityBits
    omega
  rw [ofInt, round, magnitudeBits, if_neg hm, min_eq_left hbits.le, value_pack _ hbits,
    magnitudeValue_bits (unitExponent_ge _ _) (roundedUnits_le _ _) (le_roundedUnits hm), hu, hz, zpow_zero, mul_one]

/-- The product of two finite values is the rounding of the exact product. -/
theorem mul_finite {a b : Binary64} {x y : Rat} (ha : value a = .fin x) (hb : value b = .fin y) :
    ∃ (neg : Bool) (m : Nat) (e : Int), mul a b = round neg m e ∧ x * y = signum neg * (m * 2 ^ e) := by
  obtain ⟨haN, haI, rfl⟩ := value_fin_eq ha
  obtain ⟨hbN, hbI, rfl⟩ := value_fin_eq hb
  refine ⟨negative a ^^ negative b, mantissa a * mantissa b, exponent a + exponent b, ?_, ?_⟩
  · simp [mul, haN, haI, hbN, hbI]
  · rw [signum_xor, zpow_add₀ (by norm_num)]
    push_cast
    ring

/-- A product bounded by an integer of at most 53 bits stays bounded by it when rounded. -/
theorem mul_bounded {a b : Binary64} {x y : Rat} (ha : value a = .fin x) (hb : value b = .fin y) {B : Nat}
    (hB : B ≤ 2 ^ 53) (h : |x * y| ≤ B) : ∃ p, value (mul a b) = .fin p ∧ |p| ≤ B := by
  obtain ⟨neg, m, e, hmul, hz⟩ := mul_finite ha hb
  have habs : |x * y| = m * 2 ^ e := by
    rw [hz, abs_signum_mul, abs_of_nonneg (mul_nonneg (Nat.cast_nonneg m) (zpow_pos' e).le)]
  have hB' : (B : Rat) ≤ 2 ^ 53 := by exact_mod_cast hB
  have hlt : (m : Rat) * 2 ^ e < (2 ^ 54 - 1) * 2 ^ 970 := by
    rw [← habs]
    have hT : (1 : Rat) ≤ 2 ^ 970 := one_le_pow₀ (by norm_num)
    generalize (2 : Rat) ^ 970 = T at hT ⊢
    linarith only [h, hB', hT]
  obtain ⟨p, hp, hn, -⟩ := (round_spec neg m e).1 hlt
  refine ⟨p, by rw [hmul, hp], ?_⟩
  have hpos := hn _ _ (value_ofInt (n := (B : Int)) (by rw [Nat.abs_cast]; exact_mod_cast hB))
  have hneg := hn _ _ (value_ofInt (n := -(B : Int)) (by rw [abs_neg, Nat.abs_cast]; exact_mod_cast hB))
  rw [← hz] at hpos hneg
  push_cast at hpos hneg
  obtain ⟨h1, h2⟩ := abs_le.1 h
  rw [abs_of_nonneg (by linarith : (0 : Rat) ≤ B - x * y)] at hpos
  rw [abs_of_nonpos (by linarith : -(B : Rat) - x * y ≤ 0)] at hneg
  exact abs_le.2 ⟨by linarith [(abs_le.1 hneg).1], by linarith [(abs_le.1 hpos).2]⟩

/-- A representable product is exact. -/
theorem mul_exact {a b w : Binary64} {x y : Rat} (ha : value a = .fin x) (hb : value b = .fin y)
    (hw : value w = .fin (x * y)) : value (mul a b) = .fin (x * y) := by
  obtain ⟨neg, m, e, hmul, hz⟩ := mul_finite ha hb
  rw [hmul, hz]
  rw [hz] at hw
  exact round_exact hw

end Sys2Proof.Machine.Float64
end

