-- ==== Sys2Proof/Laws/PerInstr.lean ====
section
/-! SUPPORT. The family Encodable: an operation has a command frame exactly where it is well-formed. -/

namespace Sys2Proof.Laws.Encodable

open Sys2Proof.Machine

/-- The operation has a frame, for any motor, exactly where it is well-formed. -/
def Statement (i : Instr) : Prop := ∀ m, (encode m i).isSome = i.wellFormed

theorem setDutyCycle (x : Number) : Statement (.setDutyCycle x) := by
  intro m
  simp only [encode, Instr.mode?, encodeOperands, Instr.wellFormed, isField32_eq]
  cases encodeField32 dutyScale x <;> rfl

theorem setCurrent (x : Number) : Statement (.setCurrent x) := by
  intro m
  simp only [encode, Instr.mode?, encodeOperands, Instr.wellFormed, isField32_eq]
  cases encodeField32 currentScale x <;> rfl

theorem setBrakeCurrent (x : Number) : Statement (.setBrakeCurrent x) := by
  intro m
  simp only [encode, Instr.mode?, encodeOperands, Instr.wellFormed, isField32_eq]
  cases encodeField32 currentScale x <;> rfl

theorem setVelocity (x : Number) : Statement (.setVelocity x) := by
  intro m
  simp only [encode, Instr.mode?, encodeOperands, Instr.wellFormed, isField32_eq]
  cases encodeField32 velocityScale x <;> rfl

theorem setPosition (x : Number) : Statement (.setPosition x) := by
  intro m
  simp only [encode, Instr.mode?, encodeOperands, Instr.wellFormed, isField32_eq]
  cases encodeField32 posScale x <;> rfl

theorem setOrigin (b : Bool) : Statement (.setOrigin b) := fun _ => rfl

theorem setPositionVelocity (x : Number) (rpm acc : Int) : Statement (.setPositionVelocity x rpm acc) := by
  intro m
  simp only [encode, Instr.mode?, encodeOperands, Instr.wellFormed, isField32_eq, isField16_eq]
  cases encodeField32 posScale x <;> cases encodeField16 rpm <;> cases encodeField16 acc <;> rfl

theorem readStatus (w : Option Duration) : Statement (.readStatus w) := fun _ => rfl

end Sys2Proof.Laws.Encodable
end

