-- ==== Sys2Proof/Tests/Slice0.lean ====
section
/-! SUPPORT. The model's own tests: instruction words written out from 30_encoding.md, the checks of WellFormed on
ill-formed terms, the vectors of 95_test_vectors.md (its names stand in the comments; decimals are given by their
binary64 patterns), and for each obligation with hypotheses a witness that meets them. -/

namespace Sys2Proof.Tests

open Sys2Proof.Machine

/-- A built instance whose transport accepts one frame and answers `receive` with `rx`: the start of the spec's test
vectors. -/
def vectorState (m : MotorId) (rx : List ReceiveAnswer) : State :=
  { State.reset with codec := .built m, rx := rx, tx := [.accepted] }

/-- The result an answer's transaction reported last. -/
def lastResult : Answer → Option Result
  | .next t => t.results.getLast?
  | _ => none

/-- The result of one operation on `Codec(0x68)`, as 95_test_vectors.md runs its vectors. -/
def vector (i : Instr) : Option Result := lastResult (exec i (vectorState 0x68 []))

/-- The result of one readStatus whose `receive` is answered with a payload. -/
def statusVector (bs : Payload) : Option Result :=
  lastResult (exec (.readStatus none) (vectorState 0x68 [.frame bs]))


/-! ## Words from the encoding tables (R60 to R66) -/

theorem test_decode_setDutyCycle :
    decodeCommand (ext 0b00000000000000000000000001101000#32
      [0b00000000#8, 0b00000000#8, 0b11000011#8, 0b01010000#8]) =
    .ok (0x68, .setDutyCycle (.exact (mkRat 1 2))) := by decide

theorem test_decode_setCurrent :
    decodeCommand (ext 0b00000000000000000000000101101000#32
      [0b00000000#8, 0b00000000#8, 0b00010011#8, 0b10001000#8]) =
    .ok (0x68, .setCurrent (.exact 5)) := by decide

theorem test_decode_setBrakeCurrent :
    decodeCommand (ext 0b00000000000000000000001001101000#32
      [0b00000000#8, 0b00000000#8, 0b00010011#8, 0b10001000#8]) =
    .ok (0x68, .setBrakeCurrent (.exact 5)) := by decide

theorem test_decode_setVelocity :
    decodeCommand (ext 0b00000000000000000000001101101000#32
      [0b11111111#8, 0b11111111#8, 0b11111100#8, 0b00011000#8]) =
    .ok (0x68, .setVelocity (.exact (-1000))) := by decide

theorem test_decode_setPosition :
    decodeCommand (ext 0b00000000000000000000010001101000#32
      [0b00000000#8, 0b00011011#8, 0b01110111#8, 0b01000000#8]) =
    .ok (0x68, .setPosition (.exact 180)) := by decide

theorem test_decode_setOrigin :
    decodeCommand (ext 0b00000000000000000000010111111111#32 [0b00000001#8]) = .ok (0xFF, .setOrigin true) := by
  decide

theorem test_decode_setPositionVelocity :
    decodeCommand (ext 0b00000000000000000000011001101000#32
      [0b00000000#8, 0b00011011#8, 0b01110111#8, 0b01000000#8, 0b00000001#8, 0b11110100#8, 0b00001011#8,
        0b10111000#8]) =
    .ok (0x68, .setPositionVelocity (.exact 180) 5000 30000) := by decide

/-- T-D9's identifier matches no command row, only readStatus's. -/
theorem test_decode_readStatus : decodeTableWord 32 0b00000000000000000010100100000101 = some (.readStatus none) := by
  decide

/-- The same word, placed as the first instruction after reset, runs: eight zero bytes decode to a status. -/
theorem test_placed_status_word_runs :
    (lastResult (step (State.reset.withFetchWord 32 0x2905))).isSome = true := by decide

theorem test_placed_command_word_runs :
    (match step (State.reset.withFetchWord 32 0x368) with
     | .next t => t.sends.map SendCall.frame
     | _ => []) = [ext 0x368 [0, 0, 0, 0]] := by decide

/-! ## WellFormed refuses ill-formed terms -/

theorem test_domain_refused : (Instr.setCurrent (.exact 5)).inDomain .binary64 = false := by decide

/-- A third of an ampere is no field at scale 1000. -/
theorem test_field32_fraction_refused : (Instr.setCurrent (.exact (mkRat 1 3))).wellFormed = false := by decide

/-- 2^31 is one past int32. -/
theorem test_field32_range_refused : (Instr.setVelocity (.exact 2147483648)).wellFormed = false := by decide

theorem test_field32_float_refused : (Instr.setVelocity (.binary64 0#64)).wellFormed = false := by decide

/-- 15 is not ten times an integer. -/
theorem test_field16_multiple_refused : (Instr.setPositionVelocity (.exact 0) 15 0).wellFormed = false := by decide

/-- 327680 is ten times 2^15. -/
theorem test_field16_range_refused : (Instr.setPositionVelocity (.exact 0) 0 327680).wellFormed = false := by decide

theorem test_status_has_no_frame : (Instr.readStatus none).wellFormed = false := by decide

theorem test_standard_frame_refused : (Frame.wellFormed ⟨0x68, [0, 0, 0, 0], false⟩) = false := by decide

theorem test_outside_bits_refused : (ext 0x20000068 [0, 0, 0, 0]).wellFormed = false := by decide

theorem test_upper_bits_refused : (ext 0x00010068 [0, 0, 0, 0]).wellFormed = false := by decide

theorem test_tag7_refused : (ext 0x768 [0, 0, 0, 0]).wellFormed = false := by decide

theorem test_length_refused : (ext 0x168 [0, 0, 0]).wellFormed = false := by decide

theorem test_origin_byte_refused : (ext 0x568 [2]).wellFormed = false := by decide

/-! ## The spec's vectors -/

/-- T-E1c, T-E1a, T-E1b, T-E1d, T-E1e: accepted. -/
theorem test_setDutyCycle_frames :
    vector (.setDutyCycle (.binary64 0x3FE0000000000000#64)) = some (.ok (ext 0x68 [0x00, 0x00, 0xC3, 0x50])) ∧
    vector (.setDutyCycle (.binary64 0xBFF0000000000000#64)) = some (.ok (ext 0x68 [0xFF, 0xFE, 0x79, 0x60])) ∧
    vector (.setDutyCycle (.binary64 0x8000000000000000#64)) = some (.ok (ext 0x68 [0x00, 0x00, 0x00, 0x00])) ∧
    vector (.setDutyCycle (.binary64 0xBEEF75104D551D69#64)) = some (.ok (ext 0x68 [0xFF, 0xFF, 0xFF, 0xFF])) ∧
    vector (.setDutyCycle (.binary64 0x3ED4F8B588E368F1#64)) = some (.ok (ext 0x68 [0x00, 0x00, 0x00, 0x00])) := by
  decide +kernel

/-- T-E6 (both domains and 0.57), T-E1f, T-E1g, T-E1h. -/
theorem test_setDutyCycle_domains_and_bounds :
    vector (.setDutyCycle (.binary64 0x3FD28F5C28F5C28F#64)) = some (.ok (ext 0x68 [0x00, 0x00, 0x71, 0x47])) ∧
    vector (.setDutyCycle (.exact (mkRat 29 100))) = some (.ok (ext 0x68 [0x00, 0x00, 0x71, 0x48])) ∧
    vector (.setDutyCycle (.binary64 0x3FE23D70A3D70A3D#64)) = some (.ok (ext 0x68 [0x00, 0x00, 0xDE, 0xA7])) ∧
    vector (.setDutyCycle (.binary64 0x3FF0000000000001#64)) =
      some (.err (.outOfRange .duty (.real (.binary64 0x3FF0000000000001#64)))) ∧
    vector (.setDutyCycle (.binary64 0x7FF8000000000000#64)) =
      some (.err (.outOfRange .duty (.real (.binary64 0x7FF8000000000000#64)))) ∧
    vector (.setDutyCycle (.binary64 0xFFF0000000000000#64)) =
      some (.err (.outOfRange .duty (.real (.binary64 0xFFF0000000000000#64)))) := by
  decide +kernel

/-- T-S3, T-E2a, T-E2b, T-E2c, T-E2d, T-E6 (1.005 in both domains, 4.35). -/
theorem test_setCurrent_frames :
    vector (.setCurrent (.binary64 0x4014000000000000#64)) = some (.ok (ext 0x168 [0x00, 0x00, 0x13, 0x88])) ∧
    vector (.setCurrent (.binary64 0xC004000000000000#64)) = some (.ok (ext 0x168 [0xFF, 0xFF, 0xF6, 0x3C])) ∧
    vector (.setCurrent (.binary64 0x3F589374BC6A7EFA#64)) = some (.ok (ext 0x168 [0x00, 0x00, 0x00, 0x01])) ∧
    vector (.setCurrent (.binary64 0x4140624DD2E147AE#64)) = some (.ok (ext 0x168 [0x7F, 0xFF, 0xFF, 0xFF])) ∧
    vector (.setCurrent (.binary64 0xC140624DD2F1A9FC#64)) = some (.ok (ext 0x168 [0x80, 0x00, 0x00, 0x00])) ∧
    vector (.setCurrent (.binary64 0x3FF0147AE147AE14#64)) = some (.ok (ext 0x168 [0x00, 0x00, 0x03, 0xEC])) ∧
    vector (.setCurrent (.exact (mkRat 1005 1000))) = some (.ok (ext 0x168 [0x00, 0x00, 0x03, 0xED])) ∧
    vector (.setCurrent (.binary64 0x4011666666666666#64)) = some (.ok (ext 0x168 [0x00, 0x00, 0x10, 0xFE])) := by
  decide +kernel

/-- T-E2e, T-E2f, T-E2g: Unrepresentable each. -/
theorem test_setCurrent_errors :
    [0x4140624DD2F1A9FC#64, 0xC140624DD3126E98#64, 0x7FF8000000000000#64, 0x7FF0000000000000#64,
        0x7FE1CCF385EBC8A0#64].map (fun w => vector (.setCurrent (.binary64 w))) =
      [0x4140624DD2F1A9FC#64, 0xC140624DD3126E98#64, 0x7FF8000000000000#64, 0x7FF0000000000000#64,
        0x7FE1CCF385EBC8A0#64].map
        (fun w => some (Result.err (.unrepresentable .current (.real (.binary64 w))))) := by
  decide +kernel

/-- T-S4, T-E3a, T-E3b, T-E3f. -/
theorem test_setBrakeCurrent_frames :
    vector (.setBrakeCurrent (.binary64 0x4014000000000000#64)) = some (.ok (ext 0x268 [0x00, 0x00, 0x13, 0x88])) ∧
    vector (.setBrakeCurrent (.binary64 0x0000000000000000#64)) = some (.ok (ext 0x268 [0x00, 0x00, 0x00, 0x00])) ∧
    vector (.setBrakeCurrent (.binary64 0x8000000000000000#64)) = some (.ok (ext 0x268 [0x00, 0x00, 0x00, 0x00])) ∧
    vector (.setBrakeCurrent (.binary64 0x3F4D7DBF487FCB92#64)) = some (.ok (ext 0x268 [0x00, 0x00, 0x00, 0x00])) := by
  decide +kernel

/-- T-S4, T-E3c, T-E3d: OutOfRange; T-E3e: Unrepresentable. -/
theorem test_setBrakeCurrent_errors :
    [0xBFF0000000000000#64, 0xBF1A36E2EB1C432D#64, 0x7FF8000000000000#64].map
        (fun w => vector (.setBrakeCurrent (.binary64 w))) =
      [0xBFF0000000000000#64, 0xBF1A36E2EB1C432D#64, 0x7FF8000000000000#64].map
        (fun w => some (Result.err (.outOfRange .current (.real (.binary64 w))))) ∧
    vector (.setBrakeCurrent (.binary64 0x7FF0000000000000#64)) =
      some (.err (.unrepresentable .current (.real (.binary64 0x7FF0000000000000#64)))) := by
  decide +kernel

/-- T-S5, T-E4a, T-E4b, T-E4c, T-E4d. -/
theorem test_setVelocity_frames :
    vector (.setVelocity (.binary64 0x408F400000000000#64)) = some (.ok (ext 0x368 [0x00, 0x00, 0x03, 0xE8])) ∧
    vector (.setVelocity (.binary64 0xC08F45999999999A#64)) = some (.ok (ext 0x368 [0xFF, 0xFF, 0xFC, 0x18])) ∧
    vector (.setVelocity (.binary64 0x3FEFF7CED916872B#64)) = some (.ok (ext 0x368 [0x00, 0x00, 0x00, 0x00])) ∧
    vector (.setVelocity (.binary64 0x41DFFFFFFFF9999A#64)) = some (.ok (ext 0x368 [0x7F, 0xFF, 0xFF, 0xFF])) ∧
    vector (.setVelocity (.binary64 0xC1E00000001CCCCD#64)) = some (.ok (ext 0x368 [0x80, 0x00, 0x00, 0x00])) := by
  decide +kernel

/-- T-E4e, T-E4f. -/
theorem test_setVelocity_errors :
    vector (.setVelocity (.binary64 0x41E0000000000000#64)) =
      some (.err (.unrepresentable .rpm (.real (.binary64 0x41E0000000000000#64)))) ∧
    vector (.setVelocity (.binary64 0xC1E0000000200000#64)) =
      some (.err (.unrepresentable .rpm (.real (.binary64 0xC1E0000000200000#64)))) := by
  decide +kernel

/-- T-S6, T-E5a, T-E5b, T-E5c, T-E5d, T-E5g. -/
theorem test_setPosition_frames :
    vector (.setPosition (.binary64 0x4066800000000000#64)) = some (.ok (ext 0x468 [0x00, 0x1B, 0x77, 0x40])) ∧
    vector (.setPosition (.binary64 0x40E1940000000000#64)) = some (.ok (ext 0x468 [0x15, 0x75, 0x2A, 0x00])) ∧
    vector (.setPosition (.binary64 0xC0E1940000000000#64)) = some (.ok (ext 0x468 [0xEA, 0x8A, 0xD6, 0x00])) ∧
    vector (.setPosition (.binary64 0x40E193FFFF972474#64)) = some (.ok (ext 0x468 [0x15, 0x75, 0x29, 0xFF])) ∧
    vector (.setPosition (.binary64 0xBF0A36E2EB1C432D#64)) = some (.ok (ext 0x468 [0x00, 0x00, 0x00, 0x00])) ∧
    vector (.setPosition (.binary64 0x405EDD3A92A30553#64)) = some (.ok (ext 0x468 [0x00, 0x12, 0xD6, 0x87])) := by
  decide +kernel

/-- T-S6, T-E5f. -/
theorem test_setPosition_errors :
    [0x40E3880000000000#64, 0xC0E3880000000000#64, 0x40E1940000D1B717#64].map
        (fun w => vector (.setPosition (.binary64 w))) =
      [0x40E3880000000000#64, 0xC0E3880000000000#64, 0x40E1940000D1B717#64].map
        (fun w => some (Result.err (.outOfRange .degrees (.real (.binary64 w))))) := by
  decide +kernel

/-- T-S7, T-E7a. -/
theorem test_setOrigin_frames :
    vector (.setOrigin false) = some (.ok (ext 0x568 [0x00])) ∧
    lastResult (exec (.setOrigin true) (vectorState 255 [])) = some (.ok (ext 0x5FF [0x01])) := by
  decide +kernel

/-- T-S8, T-E8a, T-E8b, T-E8e, T-E8f. -/
theorem test_setPositionVelocity_frames :
    vector (.setPositionVelocity (.binary64 0x4066800000000000#64) 5000 30000) =
      some (.ok (ext 0x668 [0x00, 0x1B, 0x77, 0x40, 0x01, 0xF4, 0x0B, 0xB8])) ∧
    vector (.setPositionVelocity (.binary64 0xC056800000000000#64) (-15) (-5)) =
      some (.ok (ext 0x668 [0xFF, 0xF2, 0x44, 0x60, 0xFF, 0xFF, 0x00, 0x00])) ∧
    vector (.setPositionVelocity (.binary64 0x0000000000000000#64) 327679 (-327689)) =
      some (.ok (ext 0x668 [0x00, 0x00, 0x00, 0x00, 0x7F, 0xFF, 0x80, 0x00])) ∧
    vector (.setPositionVelocity (.binary64 0x0000000000000000#64) 9 (-9)) =
      some (.ok (ext 0x668 [0x00, 0x00, 0x00, 0x00, 0x00, 0x00, 0x00, 0x00])) ∧
    vector (.setPositionVelocity (.binary64 0x4046C00000000000#64) (-1234) 25) =
      some (.ok (ext 0x668 [0x00, 0x06, 0xF1, 0x58, 0xFF, 0x85, 0x00, 0x02])) := by
  decide +kernel

/-- T-E8c, T-E8d, T-E9. -/
theorem test_setPositionVelocity_errors :
    vector (.setPositionVelocity (.binary64 0x0000000000000000#64) 327680 0) =
      some (.err (.unrepresentable .rpm (.int 327680))) ∧
    vector (.setPositionVelocity (.binary64 0x0000000000000000#64) 0 (-327690)) =
      some (.err (.unrepresentable .acceleration (.int (-327690)))) ∧
    vector (.setPositionVelocity (.binary64 0x40E3880000000000#64) 1000000000 1000000000) =
      some (.err (.outOfRange .degrees (.real (.binary64 0x40E3880000000000#64)))) ∧
    vector (.setPositionVelocity (.binary64 0x0000000000000000#64) 1000000000 1000000000) =
      some (.err (.unrepresentable .rpm (.int 1000000000))) := by
  decide +kernel

/-- T-S9 (with T-D8's two more bytes), T-D3, T-D4, T-D5, T-D6. -/
theorem test_readStatus_statuses :
    statusVector [0x07, 0x08, 0x03, 0xE8, 0x01, 0xF4, 0x19, 0x00, 0xAA, 0xBB] =
      some (.status ⟨.binary64 0x4066800000000000#64, .binary64 0x40C3880000000000#64,
        .binary64 0x4014000000000000#64, 25, 0⟩ ⟨1800, 1000, 500, 25, 0⟩) ∧
    statusVector [0xFF, 0xFF, 0xFF, 0xFF, 0xFF, 0xFF, 0xFF, 0xFF] =
      some (.status ⟨.binary64 0xBFB999999999999A#64, .binary64 0xC024000000000000#64,
        .binary64 0xBF847AE147AE147B#64, -1, 255⟩ ⟨-1, -1, -1, -1, 255⟩) ∧
    statusVector [0x80, 0x00, 0x80, 0x00, 0x80, 0x00, 0x80, 0xFF] =
      some (.status ⟨.binary64 0xC0A999999999999A#64, .binary64 0xC114000000000000#64,
        .binary64 0xC0747AE147AE147B#64, -128, 255⟩ ⟨-32768, -32768, -32768, -128, 255⟩) ∧
    statusVector [0x7F, 0xFF, 0x7F, 0xFF, 0x7F, 0xFF, 0x7F, 0x01] =
      some (.status ⟨.binary64 0x40A9996666666667#64, .binary64 0x4113FFD800000000#64,
        .binary64 0x40747AB851EB851F#64, 127, 1⟩ ⟨32767, 32767, 32767, 127, 1⟩) ∧
    statusVector [0x00, 0x01, 0xFF, 0xFF, 0x00, 0x03, 0xE7, 0x0A] =
      some (.status ⟨.binary64 0x3FB999999999999A#64, .binary64 0xC024000000000000#64,
        .binary64 0x3F9EB851EB851EB8#64, -25, 10⟩ ⟨1, -1, 3, -25, 10⟩) := by
  decide +kernel

/-- T-D1, T-D2, T-D10, and T-R2: on an Unbuilt instance readStatus is refused and `receive` is not called. -/
theorem test_readStatus_no_data :
    statusVector [] = some .noData ∧ statusVector [0x07, 0x08, 0x03, 0xE8, 0x01, 0xF4, 0x19] = some .noData ∧
    lastResult (exec (.readStatus none) (vectorState 0x68 [.absent])) = some .noData ∧
    (match exec (.readStatus none) State.reset with
     | .next t => (t.results, t.receives)
     | _ => ([], [])) = ([.refused], []) := by
  decide +kernel

/-- T-C1 to T-C5. -/
theorem test_construction :
    ([0, 255, 256, -1, 1000000000] : List Int).map (fun v =>
        match construct v State.reset with
        | .next t => (t.codec, t.results)
        | _ => (.unbuilt, [])) =
      [(.built 0, [.built]), (.built 255, [.built]), (.unbuilt, [.err (.invalidIdentifier 256)]),
        (.unbuilt, [.err (.invalidIdentifier (-1))]), (.unbuilt, [.err (.invalidIdentifier 1000000000)])] := by
  decide

/-! ## Witnesses: for each obligation with hypotheses, states and operands that meet them, clause by clause, at the
ends of their ranges -/

/-- The state before an operation of `rest`: the instance `m`, with these requests. -/
def asked (m : MotorId) (reqs : List Request) : State := { vectorState m [] with requests := reqs }

/-- Three operations on `Codec(0x68)`: five amperes, a duty past its bound, and a status of eight zero bytes. -/
def sampleRun : State :=
  { vectorState 0x68 [.frame [0, 0, 0, 0, 0, 0, 0, 0]] with
    requests := [.call (.setCurrent (.exact 5)), .call (.setDutyCycle (.exact 2)), .call (.readStatus none)] }

theorem witness_IdentifierRoundTrip :
    (0 : BitVec 8).toNat ≤ 6 ∧ (6 : BitVec 8).toNat ≤ 6 ∧ arbId 6 0xFF = arbId 6 0xFF ∧
      idTag (arbId 6 0xFF) = 6 ∧ idMotor (arbId 6 0xFF) = 0xFF := by decide

theorem witness_EmittedIdentifierLayout :
    ∃ t c, (vectorState 0xFF []).codec = .built 0xFF ∧
      exec (.setPositionVelocity (.exact 180) 5000 30000) (vectorState 0xFF []) = .next t ∧
      t.sends = (vectorState 0xFF []).sends ++ [c] ∧ c.frame.arbitrationId = 0x6FF :=
  ⟨_, { frame := ext 0x6FF [0x00, 0x1B, 0x77, 0x40, 0x01, 0xF4, 0x0B, 0xB8], answer := .accepted },
    rfl, rfl, rfl, rfl⟩

theorem witness_TwosComplementRoundTrip :
    sext (tc 32 (-2147483648)) = -2147483648 ∧ sext (tc 32 2147483647) = 2147483647 ∧
      sext (tc 16 (-32768)) = -32768 ∧ sext (tc 16 32767) = 32767 ∧ sext (tc 8 (-128)) = -128 ∧
      sext (tc 8 127) = 127 := by decide

theorem witness_EmittedFrameFollowsTag :
    ∃ t c, exec (.setOrigin true) (vectorState 0x68 []) = .next t ∧
      t.sends = (vectorState 0x68 []).sends ++ [c] ∧ c.frame.payload.length = 1 :=
  ⟨_, { frame := ext 0x568 [0x01], answer := .accepted }, rfl, rfl, rfl⟩

/-- Also at the ends of the 32-bit and 16-bit fields. -/
theorem witness_DecodeOfEncode :
    (Instr.setVelocity (.exact 2147483647)).wellFormed = true ∧
      (Instr.setDutyCycle (.exact (mkRat (-2147483648) 100000))).wellFormed = true ∧
      (Instr.setOrigin false).wellFormed = true ∧
      (Instr.setPositionVelocity (.exact (mkRat 1 10000)) (-327680) 327670).wellFormed = true := by decide

theorem witness_EncodeOfDecode :
    decodeCommand (ext 0x6FF [0x7F, 0xFF, 0xFF, 0xFF, 0x80, 0x00, 0x7F, 0xFF]) =
      .ok (0xFF, .setPositionVelocity (.exact (mkRat 2147483647 10000)) (-327680) 327670) := by decide

/-- The frames of the six clauses, each at an end of its range. -/
def reservedFrames : List Frame :=
  [⟨0x68, [0, 0, 0, 0], false⟩, ext 0x20000000 [0, 0, 0, 0], ext 0xFFFFFFFF [], ext 0x00010000 [0, 0, 0, 0],
    ext 0x1FFFFFFF [], ext 0x700 [0, 0, 0, 0], ext 0xFFFF [0], ext 0x4FF [0, 0, 0], ext 0x500 [], ext 0x600 [0],
    ext 0x500 [2], ext 0x5FF [0xFF]]

theorem witness_ReservedEncodingsAreRefused :
    reservedFrames.map (fun f =>
        match step (asked 0x68 [.encoded f]) with
        | .refused (.reservedEncoding e) => some e
        | _ => none) =
      [some .standardFormat, some .beyondIdentifierField, some .beyondIdentifierField, some .upperIdentifierBits,
        some .upperIdentifierBits, some (.reservedTag 7), some (.reservedTag 0xFF),
        some (.wrongLength .positionLoop 3), some (.wrongLength .setOrigin 0),
        some (.wrongLength .positionVelocityLoop 1), some (.reservedOriginByte 2),
        some (.reservedOriginByte 0xFF)] := by decide

theorem witness_StatusFormatRoundTrip :
    extract (encodeStatus (-32768) 32767 (-32768) (-128) 255) = ⟨-32768, 32767, -32768, -128, 255⟩ ∧
      extract (encodeStatus 32767 (-32768) 32767 127 0) = ⟨32767, -32768, 32767, 127, 0⟩ ∧
      ([0x80, 0x00, 0x7F, 0xFF, 0x80, 0x00, 0x80, 0xFF] : Payload).length = 8 := by decide

theorem witness_StepRunsThePresentedOperation :
    (asked 0x68 [.call (.setOrigin true)]).requests = .call (.setOrigin true) :: [] ∧
      decodeCommand (ext 0x568 [1]) = .ok (0x68, .setOrigin true) ∧
      (asked 0x68 [.encoded (ext 0x568 [1])]).codec = .built 0x68 ∧
      (State.reset.codec = .unbuilt) ∧
      (asked 0x69 [.encoded (ext 0x568 [1])]).codec = .built 0x69 ∧ (0x68 : MotorId) ≠ 0x69 := by decide

theorem witness_StepRunsThePlacedWord :
    decodeCommand (frameOfWord 40 0x100000568) = .ok (0x68, .setOrigin true) ∧
      statusRowOnly (frameOfWord 32 0x700) = true ∧ statusRowOnly (frameOfWord 32 0x1FFFFFFF) = true := by decide

theorem witness_IdleStepChangesNothing : State.reset.requests = [] := rfl

theorem witness_OneResultAndAtMostOneFrame :
    sampleRun.requests ≠ [] ∧ ∃ t, step sampleRun = .next t ∧ t.sends.length = 1 :=
  ⟨by decide, _, rfl, rfl⟩

/-- At 0, 255, -1 and 256. -/
theorem witness_ConstructionLoadsMotorIdOrRaises :
    State.reset.codec = .unbuilt ∧
      ([0, 255, -1, 256] : List Int).map (fun v =>
          match step { State.reset with requests := [.construct v] } with
          | .next t => (t.codec, t.results)
          | _ => (.unbuilt, [])) =
        [(.built 0, [.built]), (.built 255, [.built]), (.unbuilt, [.err (.invalidIdentifier (-1))]),
          (.unbuilt, [.err (.invalidIdentifier 256)])] := by decide

theorem witness_UnbuiltInstanceRefuses : State.reset.codec = .unbuilt := rfl

theorem witness_MotorIdIsImmutable :
    sampleRun.codec = .built 0x68 ∧ ∃ t : State, Sys2Proof.core.run 3 sampleRun = .next t ∧ t.results.length = 3 :=
  ⟨rfl, _, rfl, rfl⟩

theorem witness_OnlyConstructionBuilds :
    ∃ t : State, State.reset.codec = .unbuilt ∧
      step { State.reset with requests := [.construct 255] } = .next t ∧ t.codec = .built 255 :=
  ⟨_, rfl, rfl, rfl⟩

theorem witness_BuiltInstanceIsNotRebuilt :
    (asked 0x68 [.construct 0x69]).codec = .built 0x68 ∧
      (asked 0x68 [.construct 0x69]).requests = .construct 0x69 :: [] := by decide

/-- The largest finite binary64 value times 1 lies below the threshold, and times -2 past it. -/
theorem witness_ProductIsCorrectlyRounded :
    Float64.value 0x7FEFFFFFFFFFFFFF#64 = .fin ((2 ^ 53 - 1) * 2 ^ 971) ∧
      Float64.value 0x3FF0000000000000#64 = .fin 1 ∧ Float64.value 0xC000000000000000#64 = .fin (-2) ∧
      |((2 ^ 53 - 1) * 2 ^ 971 : Rat) * 1| < (2 ^ 54 - 1) * 2 ^ 970 ∧
      (2 ^ 54 - 1) * 2 ^ 970 ≤ |((2 ^ 53 - 1) * 2 ^ 971 : Rat) * (-2)| := by
  have e : (2 : Rat) ^ 971 = 2 ^ 970 * 2 := pow_succ 2 970
  have h : (0 : Rat) < 2 ^ 970 := by positivity
  refine ⟨by decide +kernel, by decide +kernel, by decide +kernel, ?_, ?_⟩ <;> rw [e] <;>
    generalize (2 : Rat) ^ 970 = w at h
  · rw [abs_of_pos (by linarith)]; linarith
  · rw [abs_of_neg (by linarith)]; linarith

theorem witness_IntegersConvertExactly :
    |(2 ^ 53 : Int)| ≤ 2 ^ 53 ∧ |(-(2 ^ 53) : Int)| ≤ 2 ^ 53 ∧ |(-32768 : Int)| ≤ 2 ^ 53 := by decide +kernel

theorem witness_ProductByOneIsTheValue :
    numeric (.binary64 0x7FEFFFFFFFFFFFFF#64) = .fin ((2 ^ 53 - 1) * 2 ^ 971) ∧ numeric (.exact (-3)) = .fin (-3) := by
  decide +kernel

theorem only_number {x : Number} {q : Rat} {P : Rat → Prop} (h : numeric x = .fin q) (hp : ¬ P q) :
    ¬ ∃ r, numeric x = .fin r ∧ P r := by
  rintro ⟨r, hr, hP⟩
  rw [h] at hr
  cases hr
  exact hp hP

theorem no_number {x : Number} {P : Rat → Prop} (h : ∀ r, numeric x ≠ .fin r) : ¬ ∃ r, numeric x = .fin r ∧ P r :=
  fun ⟨r, hr, _⟩ => h r hr

theorem only_scaled {x : Number} {c : Nat} {p : Rat} {P : Rat → Prop} (h : ScaledTo x c p) (hp : ¬ P p) :
    ¬ ∃ r, ScaledTo x c r ∧ P r := by
  rintro ⟨r, ⟨_, hr⟩, hP⟩
  rw [h.2] at hr
  cases hr
  exact hp hP

theorem no_scaled {x : Number} {c : Nat} {P : Rat → Prop} (h : ∀ r, numeric x ≠ .fin r) : ¬ ∃ r, ScaledTo x c r ∧ P r :=
  fun ⟨_, ⟨⟨q, hq⟩, _⟩, _⟩ => h q hq

theorem nan_value : numeric (.binary64 0x7FF8000000000000#64) = .nan := by decide

theorem inf_value : numeric (.binary64 0x7FF0000000000000#64) = .inf false ∧
    numeric (.binary64 0xFFF0000000000000#64) = .inf true := by decide

theorem nan_no_number (r : Rat) : numeric (.binary64 0x7FF8000000000000#64) ≠ .fin r := by
  rw [nan_value]; exact Extended.noConfusion

theorem inf_no_number (r : Rat) : numeric (.binary64 0x7FF0000000000000#64) ≠ .fin r := by
  rw [inf_value.1]; exact Extended.noConfusion

/-- The int32 range of a scaled product, as the statements have it. -/
abbrev InInt32 (p : Rat) : Prop := -2147483649 < p ∧ p < 2147483648

/-- 2147483.6479 A and -2147483.6489 A fit by a fraction; the next thousandths do not, nor do NaN and the infinity. -/
theorem scaled_bounds :
    (ScaledTo (.exact (mkRat 21474836479 10000)) 1000 (mkRat 21474836479 10) ∧ InInt32 (mkRat 21474836479 10)) ∧
    (ScaledTo (.exact (mkRat (-21474836489) 10000)) 1000 (mkRat (-21474836489) 10) ∧
      InInt32 (mkRat (-21474836489) 10)) ∧
    (¬ ∃ p, ScaledTo (.exact (mkRat 2147483648 1000)) 1000 p ∧ InInt32 p) ∧
    (¬ ∃ p, ScaledTo (.exact (mkRat (-2147483649) 1000)) 1000 p ∧ InInt32 p) ∧
    (¬ ∃ p, ScaledTo (.binary64 0x7FF8000000000000#64) 1000 p ∧ InInt32 p) ∧
    (¬ ∃ p, ScaledTo (.binary64 0x7FF0000000000000#64) 1000 p ∧ InInt32 p) :=
  ⟨⟨⟨⟨_, rfl⟩, by decide +kernel⟩, by decide +kernel⟩, ⟨⟨⟨_, rfl⟩, by decide +kernel⟩, by decide +kernel⟩,
    only_scaled (p := 2147483648) ⟨⟨_, rfl⟩, by decide +kernel⟩ (by decide +kernel),
    only_scaled (p := -2147483649) ⟨⟨_, rfl⟩, by decide +kernel⟩ (by decide +kernel),
    no_scaled nan_no_number, no_scaled inf_no_number⟩

theorem witness_Conv32TruncatesOrRaises :
    (∃ x p, ScaledTo x 1000 p ∧ -2147483649 < p ∧ p < 2147483648) ∧
      ∃ x, ¬ ∃ p, ScaledTo x 1000 p ∧ -2147483649 < p ∧ p < 2147483648 :=
  ⟨⟨_, _, scaled_bounds.1⟩, _, scaled_bounds.2.2.1⟩

theorem witness_Conv16DividesTowardZero :
    conv16 (-327689) .rpm = .ok (-32768) ∧ conv16 327679 .rpm = .ok 32767 ∧
      conv16 (-327690) .rpm = .error (.unrepresentable .rpm (.int (-327690))) ∧
      conv16 327680 .rpm = .error (.unrepresentable .rpm (.int 327680)) := by decide

theorem witness_SetDutyCycleEmitsOrRaises :
    (vectorState 0x68 []).codec = .built 0x68 ∧
      (numeric (.exact 1) = .fin 1 ∧ (-1 : Rat) ≤ 1 ∧ (1 : Rat) ≤ 1) ∧
      (numeric (.binary64 0xBFF0000000000000#64) = .fin (-1) ∧ (-1 : Rat) ≤ -1 ∧ (-1 : Rat) ≤ 1) ∧
      (¬ ∃ q, numeric (.exact (mkRat 10001 10000)) = .fin q ∧ -1 ≤ q ∧ q ≤ 1) ∧
      (¬ ∃ q, numeric (.exact (mkRat (-10001) 10000)) = .fin q ∧ -1 ≤ q ∧ q ≤ 1) ∧
      (¬ ∃ q, numeric (.binary64 0x7FF8000000000000#64) = .fin q ∧ -1 ≤ q ∧ q ≤ 1) :=
  ⟨rfl, ⟨rfl, by norm_num, by norm_num⟩, ⟨by decide +kernel, by norm_num, by norm_num⟩,
    only_number rfl (by decide +kernel), only_number rfl (by decide +kernel), no_number nan_no_number⟩

theorem witness_SetCurrentEmitsOrRaises :
    (vectorState 0x68 []).codec = .built 0x68 ∧
      (∃ x p, ScaledTo x 1000 p ∧ -2147483649 < p ∧ p < 2147483648) ∧
      ∃ x, ¬ ∃ p, ScaledTo x 1000 p ∧ -2147483649 < p ∧ p < 2147483648 :=
  ⟨rfl, ⟨_, _, scaled_bounds.2.1⟩, _, scaled_bounds.2.2.2.1⟩

theorem witness_SetBrakeCurrentEmitsOrRaises :
    (vectorState 0x68 []).codec = .built 0x68 ∧
      (numeric (.binary64 0x8000000000000000#64) = .fin 0 ∧ ScaledTo (.binary64 0x8000000000000000#64) 1000 0) ∧
      (ScaledTo (.exact (mkRat 21474836479 10000)) 1000 (mkRat 21474836479 10) ∧
        mkRat 21474836479 10 < 2147483648) ∧
      (numeric (.exact (mkRat (-1) 10000)) = .fin (mkRat (-1) 10000) ∧ mkRat (-1) 10000 < 0) ∧
      numeric (.binary64 0x7FF8000000000000#64) = .nan ∧
      numeric (.binary64 0xFFF0000000000000#64) = .inf true ∧
      numeric (.binary64 0x7FF0000000000000#64) = .inf false ∧
      (0 ≤ mkRat 2147483648 1000 ∧ ¬ ∃ p, ScaledTo (.exact (mkRat 2147483648 1000)) 1000 p ∧ p < 2147483648) :=
  ⟨rfl, ⟨by decide +kernel, ⟨_, rfl⟩, by decide +kernel⟩, ⟨scaled_bounds.1.1, scaled_bounds.1.2.2⟩,
    ⟨rfl, by decide +kernel⟩, nan_value, inf_value.2, inf_value.1, by decide +kernel,
    only_scaled (p := 2147483648) ⟨⟨_, rfl⟩, by decide +kernel⟩ (by decide +kernel)⟩

theorem witness_SetVelocityEmitsOrRaises :
    (vectorState 0x68 []).codec = .built 0x68 ∧
      (numeric (.exact (mkRat 21474836479 10)) = .fin (mkRat 21474836479 10) ∧ InInt32 (mkRat 21474836479 10)) ∧
      (numeric (.exact (mkRat (-21474836489) 10)) = .fin (mkRat (-21474836489) 10) ∧
        InInt32 (mkRat (-21474836489) 10)) ∧
      (¬ ∃ q, numeric (.exact 2147483648) = .fin q ∧ -2147483649 < q ∧ q < 2147483648) ∧
      (¬ ∃ q, numeric (.exact (-2147483649)) = .fin q ∧ -2147483649 < q ∧ q < 2147483648) ∧
      (¬ ∃ q, numeric (.binary64 0x7FF0000000000000#64) = .fin q ∧ -2147483649 < q ∧ q < 2147483648) :=
  ⟨rfl, ⟨rfl, by decide +kernel⟩, ⟨rfl, by decide +kernel⟩, only_number rfl (by decide +kernel),
    only_number rfl (by decide +kernel), no_number inf_no_number⟩

theorem degrees_bounds :
    (numeric (.exact 36000) = .fin 36000 ∧ (-36000 : Rat) ≤ 36000 ∧ (36000 : Rat) ≤ 36000) ∧
      (numeric (.binary64 0xC0E1940000000000#64) = .fin (-36000) ∧ (-36000 : Rat) ≤ -36000 ∧
        (-36000 : Rat) ≤ 36000) ∧
      (¬ ∃ q, numeric (.exact 36001) = .fin q ∧ -36000 ≤ q ∧ q ≤ 36000) ∧
      (¬ ∃ q, numeric (.exact (-36001)) = .fin q ∧ -36000 ≤ q ∧ q ≤ 36000) ∧
      (¬ ∃ q, numeric (.binary64 0x7FF8000000000000#64) = .fin q ∧ -36000 ≤ q ∧ q ≤ 36000) :=
  ⟨⟨rfl, by norm_num, by norm_num⟩, ⟨by decide +kernel, by norm_num, by norm_num⟩,
    only_number rfl (by decide +kernel), only_number rfl (by decide +kernel), no_number nan_no_number⟩

theorem witness_SetPositionEmitsOrRaises :
    (vectorState 0x68 []).codec = .built 0x68 ∧
      (∃ x q, numeric x = .fin q ∧ -36000 ≤ q ∧ q ≤ 36000) ∧
      ∃ x, ¬ ∃ q, numeric x = .fin q ∧ -36000 ≤ q ∧ q ≤ 36000 :=
  ⟨rfl, ⟨_, _, degrees_bounds.2.1⟩, _, degrees_bounds.2.2.1⟩

theorem witness_SetOriginEmitsItsByte : (vectorState 0x68 []).codec = .built 0x68 := rfl

/-- The four clauses in order: each parameter at its last accepted value, then each at its first rejected one. -/
theorem witness_SetPositionVelocityEmitsOrRaises :
    (vectorState 0x68 []).codec = .built 0x68 ∧
      (∃ x q, numeric x = .fin q ∧ -36000 ≤ q ∧ q ≤ 36000) ∧
      ((-327689 : Int) ≤ -327689 ∧ (-327689 : Int) ≤ 327679 ∧ (-327689 : Int) ≤ 327679 ∧ (327679 : Int) ≤ 327679) ∧
      (∃ x, ¬ ∃ q, numeric x = .fin q ∧ -36000 ≤ q ∧ q ≤ 36000) ∧
      ((327680 : Int) < -327689 ∨ (327679 : Int) < 327680) ∧
      ((-327690 : Int) < -327689 ∨ (327679 : Int) < -327690) :=
  ⟨rfl, ⟨_, _, degrees_bounds.1⟩, by decide, ⟨_, degrees_bounds.2.2.2.1⟩, by decide, by decide⟩

theorem witness_EncoderIsAllOrNothing :
    (Instr.setDutyCycle (.exact 2)).mode? = some .dutyCycle ∧ (vectorState 0x68 []).codec = .built 0x68 ∧
      (∃ t, exec (.setDutyCycle (.exact 2)) (vectorState 0x68 []) = .next t) ∧
      ∃ t, exec (.setDutyCycle (.exact 1)) (vectorState 0x68 []) = .next t ∧ t.sends.length = 1 :=
  ⟨rfl, rfl, ⟨_, rfl⟩, _, rfl, rfl⟩

/-- OutOfRange, Unrepresentable and TransportError, each reported. -/
theorem witness_ErrorsAreThoseOfTheTable :
    (∃ t, exec (.setDutyCycle (.exact 2)) (vectorState 0x68 []) = .next t ∧
      t.results = (vectorState 0x68 []).results ++ [.err (.outOfRange .duty (.real (.exact 2)))]) ∧
    (∃ t, exec (.setPositionVelocity (.exact 0) 0 327680) (vectorState 0x68 []) = .next t ∧
      t.results = (vectorState 0x68 []).results ++ [.err (.unrepresentable .acceleration (.int 327680))]) ∧
    (∃ t, exec (.readStatus none) (vectorState 0x68 [.failed ⟨7⟩]) = .next t ∧
      t.results = (vectorState 0x68 [.failed ⟨7⟩]).results ++ [.err (.transportError ⟨7⟩)]) :=
  ⟨⟨_, rfl, rfl⟩, ⟨_, rfl, rfl⟩, _, rfl, rfl⟩

/-- Both ways a failed send may have gone (R184). -/
theorem witness_TransportErrorsPassUnmodified :
    (∀ reached, ∃ t c, ({ vectorState 0x68 [] with tx := [.failed ⟨7⟩ reached] } : State).codec = .built 0x68 ∧
      exec (.setOrigin true) { vectorState 0x68 [] with tx := [.failed ⟨7⟩ reached] } = .next t ∧
      t.sends = [] ++ [c]) ∧
    (vectorState 0x68 [.failed ⟨7⟩]).codec = .built 0x68 ∧ (vectorState 0x68 [.failed ⟨7⟩]).rx = .failed ⟨7⟩ :: [] :=
  ⟨fun _ => ⟨_, _, rfl, rfl, rfl⟩, rfl, rfl⟩

theorem witness_WellFormedOperationEmitsItsEncoding :
    (vectorState 0x68 []).codec = .built 0x68 ∧ (Instr.setDutyCycle (.exact (-1))).wellFormed = true ∧
      within (.exact (-1)) dutyMax = true ∧
      (Instr.setPositionVelocity (.exact 36000) 327670 (-327680)).wellFormed = true ∧
      within (.exact 36000) posMax = true := by decide

/-- Nothing received, seven bytes, eight bytes and nine. -/
theorem witness_ReadStatusClassifiesAndDecodes :
    (vectorState 0x68 [.absent]).codec = .built 0x68 ∧ NextReceive (vectorState 0x68 [.absent]) .absent ∧
      (NextReceive (vectorState 0x68 [.frame [0, 0, 0, 0, 0, 0, 0]]) (.frame [0, 0, 0, 0, 0, 0, 0]) ∧
        ([0, 0, 0, 0, 0, 0, 0] : Payload).length < 8) ∧
      NextReceive (vectorState 0x68 [.frame [0x80, 0, 0, 0, 0, 0, 0, 0xFF]])
        (.frame (0x80 :: 0 :: 0 :: 0 :: 0 :: 0 :: 0 :: 0xFF :: [])) ∧
      NextReceive (vectorState 0x68 [.frame [0x80, 0, 0, 0, 0, 0, 0, 0xFF, 1]])
        (.frame (0x80 :: 0 :: 0 :: 0 :: 0 :: 0 :: 0 :: 0xFF :: [1])) :=
  ⟨rfl, .inl rfl, ⟨.inl rfl, by decide⟩, .inl rfl, .inl rfl⟩

theorem witness_StatusScalingValues :
    (-32768 : Int) ≤ (StatusRaw.mk 0 (-32768) 0 0 0).speedRaw ∧ (StatusRaw.mk 0 (-32768) 0 0 0).speedRaw ≤ 32767 ∧
      (-32768 : Int) ≤ (StatusRaw.mk 0 32767 0 0 0).speedRaw ∧ (StatusRaw.mk 0 32767 0 0 0).speedRaw ≤ 32767 := by
  decide

/-- Two instances of different motors, with different histories, given one answer. -/
theorem witness_DecodingDependsOnTheAnswerAlone :
    (vectorState 0x68 [.absent]).codec = .built 0x68 ∧
      ({ vectorState 0x69 [.absent] with results := [.built] } : State).codec = .built 0x69 ∧
      (vectorState 0x68 [.absent]).arith = ({ vectorState 0x69 [.absent] with results := [.built] } : State).arith ∧
      NextReceive (vectorState 0x68 [.absent]) .absent ∧
      NextReceive { vectorState 0x69 [.absent] with results := [.built] } .absent :=
  ⟨rfl, rfl, rfl, .inl rfl, .inl rfl⟩

theorem witness_DecodeNeverRaises :
    (∃ t, exec (.readStatus none) (vectorState 0x68 [.failed ⟨7⟩]) = .next t ∧
      t.results = (vectorState 0x68 [.failed ⟨7⟩]).results ++ [.err (.transportError ⟨7⟩)]) ∧
    (∃ t, exec (.readStatus none) (vectorState 0x68 [.frame []]) = .next t) ∧
    NextReceive (vectorState 0x68 [.failed ⟨7⟩]) (.failed ⟨7⟩) :=
  ⟨⟨_, rfl, rfl⟩, ⟨_, rfl⟩, .inl rfl⟩

theorem witness_ReceiveTimeoutPassesThrough : (vectorState 0x68 []).codec = .built 0x68 := rfl

/-- A state with a frame sent, its result, and a status reported meets the invariant. -/
def historyState : State :=
  { vectorState 0x68 [] with
    sends := [{ frame := ext 0x568 [1], answer := .accepted }]
    results := [.ok (ext 0x568 [1]), .status (scaleStatus .binary64 ⟨-32768, 32767, 0, -128, 255⟩)
      ⟨-32768, 32767, 0, -128, 255⟩] }

theorem history_steps : ∃ t, step { historyState with requests := [.call (.setOrigin false)] } = .next t := ⟨_, rfl⟩

theorem witness_StepKeepsFramesLegal :
    FramesLegal { historyState with requests := [.call (.setOrigin false)] } ∧
      ∃ t, step { historyState with requests := [.call (.setOrigin false)] } = .next t := by
  refine ⟨fun c hc => ?_, history_steps⟩
  simp only [historyState, List.mem_singleton] at hc
  subst hc
  exact ⟨by decide, rfl⟩

theorem witness_StepKeepsHistoryAgreement :
    HistoryAgrees { historyState with requests := [.call (.setOrigin false)] } ∧
      ∃ t, step { historyState with requests := [.call (.setOrigin false)] } = .next t :=
  ⟨rfl, history_steps⟩

theorem witness_StepKeepsStatusInRange :
    StatusInRange { historyState with requests := [.call (.setOrigin false)] } ∧
      ∃ t, step { historyState with requests := [.call (.setOrigin false)] } = .next t := by
  refine ⟨fun r raw h => ?_, history_steps⟩
  simp only [historyState, List.mem_cons, List.not_mem_nil, or_false, reduceCtorEq, false_or,
    Result.status.injEq] at h
  obtain ⟨rfl, rfl⟩ := h
  decide

theorem witness_RunOnlyExtendsTheObservation :
    ∃ t : State, Sys2Proof.core.run 3 sampleRun = .next t ∧ t.results.length = 3 ∧ t.sends.length = 1 :=
  ⟨_, rfl, rfl, rfl⟩

/-- Two instances, each with a frame to send. -/
def twoInstances : System :=
  { blocks := [asked 0x68 [.call (.setOrigin true)], asked 0x69 [.call (.setOrigin false)]], wire := [] }

theorem witness_InstancesAreIndependent : ∃ y', stepBlock 0 twoInstances = .next y' ∧ y'.wire.length = 1 ∧ 1 ≠ 0 :=
  ⟨_, rfl, rfl, by decide⟩

theorem witness_TransactionsAreAtomic : ∃ y', stepBlock 1 twoInstances = .next y' ∧ y'.wire = [(1, ext 0x569 [0])] :=
  ⟨_, rfl, rfl⟩

theorem witness_InterleavingsReachTheSameInstances :
    0 ≠ 1 ∧ ∃ y1 y2, stepBlock 0 twoInstances = .next y1 ∧ stepBlock 1 y1 = .next y2 ∧ y2.wire.length = 2 :=
  ⟨by decide, _, _, rfl, rfl, rfl⟩

end Sys2Proof.Tests
end

section
/-! The timeout of readStatus (R32). -/

namespace Sys2Proof.Machine

/-- R157: on a built instance readStatus makes one `receive` and reports what the transport's answer decodes to. -/
theorem exec_readStatus_of_built {s : State} {m : MotorId} (w : Option Duration) (hm : s.codec = .built m) :
    exec (.readStatus w) s = .next (report (decodeAnswer s.arith (receiveAnswer s)) (receive w s)) := by
  change statusTransaction w s = _
  simp only [statusTransaction, hm]

theorem waitOf_of_some {c : ReceiveCall} {d : Duration} (h : c.timeout = some d) : waitOf c = d := by
  simp [waitOf, h]

theorem waitOf_of_none {c : ReceiveCall} (h : c.timeout = none) : waitOf c = Config.rxTimeout := by
  simp [waitOf, h]

/-- Settles O48: the one call that `receive` records holds the caller's timeout, and the wait is read off that call. -/
theorem receiveTimeoutPassesThrough : Obligations.ReceiveTimeoutPassesThrough := by
  intro s m w hm
  have hcall : (report (decodeAnswer s.arith (receiveAnswer s)) (receive w s)).receives =
      s.receives ++ [{ timeout := w, answer := receiveAnswer s }] := by
    rw [report_receives, receive_receives]
  exact ⟨_, _, exec_readStatus_of_built w hm, hcall, rfl, fun _ hw => waitOf_of_some hw, fun hw => waitOf_of_none hw⟩

end Sys2Proof.Machine
end

section
/-! The identifier, the payload formats, and the frame an operation hands to `send` (R60 to R66, R101). -/

namespace Sys2Proof.Machine

/-! ## The identifier's fields -/

/-- R62: the identifier determines the tag and the motor identifier it is built from. -/
theorem arbId_injective {t t' : BitVec 8} {m m' : MotorId} (h : arbId t m = arbId t' m') : t = t' ∧ m = m' := by
  have htag := congrArg idTag h
  have hmotor := congrArg idMotor h
  rw [idTag_arbId, idTag_arbId] at htag
  rw [idMotor_arbId, idMotor_arbId] at hmotor
  exact ⟨htag, hmotor⟩

/-- Settles O1: `idTag` and `idMotor` are left inverses of the identifier builder, for every 8-bit tag. -/
theorem identifierRoundTrip : Obligations.IdentifierRoundTrip :=
  ⟨fun t m _ => ⟨idTag_arbId t m, idMotor_arbId t m⟩, fun _ _ _ _ => arbId_injective⟩

/-- R60: bits 31:16 of an identifier are zero. -/
theorem extractLsb'_upper_arbId (t : BitVec 8) (m : MotorId) : (arbId t m).extractLsb' 16 16 = 0 := by
  have ht := t.isLt
  have hm := m.isLt
  apply BitVec.eq_of_toNat_eq
  rw [BitVec.extractLsb'_toNat, arbId_toNat, Nat.shiftRight_eq_div_pow]
  change _ = 0
  omega

/-- R60: bits 15:8 of an identifier are the tag. -/
theorem extractLsb'_tag_arbId (t : BitVec 8) (m : MotorId) : (arbId t m).extractLsb' 8 8 = t := by
  have ht := t.isLt
  have hm := m.isLt
  apply BitVec.eq_of_toNat_eq
  rw [BitVec.extractLsb'_toNat, arbId_toNat, Nat.shiftRight_eq_div_pow]
  omega

/-- R60: bits 7:0 of an identifier are the motor identifier. -/
theorem extractLsb'_motor_arbId (t : BitVec 8) (m : MotorId) : (arbId t m).extractLsb' 0 8 = m := by
  have hm := m.isLt
  apply BitVec.eq_of_toNat_eq
  rw [BitVec.extractLsb'_toNat, arbId_toNat, Nat.shiftRight_zero]
  omega

theorem tagOf_toNat_le (mode : ServoMode) : (tagOf mode).toNat ≤ 6 := by cases mode <;> decide

theorem arbId_tagOf_toNat_le (mode : ServoMode) (m : MotorId) : (arbId (tagOf mode) m).toNat ≤ 0x6FF := by
  have htag := tagOf_toNat_le mode
  have hm := m.isLt
  rw [arbId_toNat]
  omega

/-! ## The frame an operation hands over -/

/-- An operation that packs nothing (readStatus) hands no frame over. -/
theorem exec_sends_of_packOf_none {i : Instr} {s t : State} (hp : packOf i = none) (h : exec i s = .next t) :
    t.sends = s.sends := by
  cases i with
  | readStatus w =>
    change statusTransaction w s = .next t at h
    unfold statusTransaction at h
    split at h <;> cases h
    · rw [refuse, report_sends]
    · rw [report_sends, receive_sends]
  | _ => simp only [packOf, reduceCtorEq] at hp

/-- A frame that an operation hands over is the built codec's command frame of the operation's ServoMode, with a payload
of that mode's format. -/
theorem exec_sent_frame {i : Instr} {s t : State} {c : SendCall} (h : exec i s = .next t)
    (hc : t.sends = s.sends ++ [c]) :
    ∃ m mode bs, s.codec = .built m ∧ i.mode? = some mode ∧ payloadAllowed mode bs = true ∧
      c.frame = commandFrame m mode bs := by
  have hne : t.sends ≠ s.sends := by rw [hc]; simp
  rcases hp : packOf i with _ | p
  · exact absurd (exec_sends_of_packOf_none hp h) hne
  rw [exec_of_pack hp] at h
  rcases encodeTransaction_eq p s with ⟨-, hend⟩ | ⟨m, e, -, -, hend⟩ | ⟨m, mode, bs, hm, rfl, hend⟩ <;>
    obtain rfl := Host.Outcome.next.inj (hend.symm.trans h)
  · exact absurd (report_sends .refused s) hne
  · exact absurd (report_sends (.err e) s) hne
  · obtain ⟨hmode, hbs⟩ := packOf_ok hp
    have hcall : { frame := commandFrame m mode bs, answer := sendAnswer s } = c := by
      simpa only [transmit, report_sends, emit_sends, List.append_cancel_left_eq, List.cons.injEq, and_true] using hc
    exact ⟨m, mode, bs, hm, hmode, hbs, hcall ▸ rfl⟩

/-- Settles O2: the frame handed over is a command frame, and its identifier is the builder's. -/
theorem emittedIdentifierLayout : Obligations.EmittedIdentifierLayout := by
  refine ⟨fun i s m t c hm h hc => ?_, by rw [arbId_toNat]; rfl⟩
  obtain ⟨m', mode, bs, hm', hmode, -, hframe⟩ := exec_sent_frame h hc
  obtain rfl : m = m' := Codec.built.inj (hm.symm.trans hm')
  rw [hframe]
  exact ⟨mode, hmode, rfl, extractLsb'_upper_arbId _ _, extractLsb'_tag_arbId _ _, extractLsb'_motor_arbId _ _, rfl,
    arbId_tagOf_toNat_le _ _⟩

theorem length_of_payloadAllowed {mode : ServoMode} {bs : Payload} (h : payloadAllowed mode bs = true) :
    bs.length = payloadLength mode := by
  simp only [payloadAllowed, Bool.and_eq_true, beq_iff_eq] at h
  exact h.1

/-- R63: the payload length of a ServoMode as a function of its tag alone. -/
theorem payloadLength_eq_of_tagOf (mode : ServoMode) :
    payloadLength mode = if (tagOf mode).toNat ≤ 4 then 4 else if (tagOf mode).toNat = 5 then 1 else 8 := by
  cases mode <;> rfl

/-- Settles O5: the frame handed over is a command frame with an allowed payload of the operation's ServoMode. -/
theorem emittedFrameFollowsTag : Obligations.EmittedFrameFollowsTag := by
  intro i s t c h hc
  obtain ⟨m, mode, bs, -, hmode, hbs, hframe⟩ := exec_sent_frame h hc
  rw [hframe]
  exact ⟨mode, hmode, idTag_arbId _ _, (length_of_payloadAllowed hbs).trans (payloadLength_eq_of_tagOf mode)⟩

/-! ## The bytes of the payload formats -/

/-- R11: the byte of a pattern that lies above its low `k` bytes is its bits `8k + 7` down to `8k`. -/
theorem ofNat_div_pow_eq_extractLsb' {n : Nat} (w : BitVec n) (k : Nat) :
    BitVec.ofNat 8 (w.toNat / 256 ^ k) = w.extractLsb' (8 * k) 8 := by
  have hbase : (256 : Nat) ^ k = 2 ^ (8 * k) := by rw [pow_mul]; norm_num
  apply BitVec.eq_of_toNat_eq
  rw [BitVec.toNat_ofNat, BitVec.extractLsb'_toNat, Nat.shiftRight_eq_div_pow, hbase]

theorem beBytes32_eq (w : BitVec 32) :
    beBytes32 w = [w.extractLsb' 24 8, w.extractLsb' 16 8, w.extractLsb' 8 8, w.extractLsb' 0 8] := by
  simp only [beBytes32, beBytesNat, ofNat_div_pow_eq_extractLsb']

theorem beBytes16_eq (w : BitVec 16) : beBytes16 w = [w.extractLsb' 8 8, w.extractLsb' 0 8] := by
  simp only [beBytes16, beBytesNat, ofNat_div_pow_eq_extractLsb']

/-- Settles O3: P4 and P8 are their fields' big-endian bytes in order, and P1 is computed. -/
theorem payloadFormats : Obligations.PayloadFormats := by
  refine ⟨fun n => beBytes32_eq _, ⟨rfl, rfl⟩, fun pos spd acc => ?_⟩
  rw [p8, beBytes32_eq, beBytes16_eq, beBytes16_eq]
  rfl

end Sys2Proof.Machine
end

section
/-! The bound checks and the conversions of R102 to R104, and what an encoder operation does once its `pack` is known.
They serve every command (R110 to R116). -/

namespace Sys2Proof.Machine

/-! ## Bound checks (R104) -/

/-- R104: the one-sided check passes the numbers from the bound up, and plus infinity. -/
theorem atLeast_iff (b : Int) (x : Number) :
    atLeast b x = true ↔ (∃ q, numeric x = .fin q ∧ (b : Rat) ≤ q) ∨ numeric x = .inf false := by
  rcases hx : numeric x with _ | neg | q
  · simp [atLeast, hx, Extended.le]
  · simp [atLeast, hx, Extended.le]
  · simp [atLeast, hx, Extended.le, ratLe_iff, mkRat_one_eq]

/-- R104: the symmetric check passes exactly the numbers between the bounds, both included. -/
theorem within_iff (x : Number) (b : Int) :
    within x b = true ↔ ∃ q, numeric x = .fin q ∧ -(b : Rat) ≤ q ∧ q ≤ b := by
  rw [within, Bool.and_eq_true, atLeast_iff]
  rcases hx : numeric x with _ | neg | q
  · simp
  · cases neg <;> simp [atMost, hx, Extended.le]
  · simp [atMost, hx, Extended.le, ratLe_iff, mkRat_one_eq]

theorem within_dutyMax_iff (x : Number) :
    within x dutyMax = true ↔ ∃ q, numeric x = .fin q ∧ -1 ≤ q ∧ q ≤ 1 := by
  simpa [dutyMax] using within_iff x dutyMax

theorem within_posMax_iff (x : Number) :
    within x posMax = true ↔ ∃ q, numeric x = .fin q ∧ -36000 ≤ q ∧ q ≤ 36000 := by
  simpa [posMax] using within_iff x posMax

theorem requireBound_of_pass {ok : Bool} (h : ok = true) (name : Param) (x : Number) :
    requireBound ok name x = .ok () := if_pos h

theorem requireBound_of_fail {ok : Bool} (h : ¬ ok = true) (name : Param) (x : Number) :
    requireBound ok name x = .error (.outOfRange name (.real x)) := if_neg h

/-! ## The scaled product (R12, R102) -/

/-- Where the exact product is not negative, neither is the rounded one: zero is a finite value, and the nearest one
does not lie beyond it. -/
theorem Float64.value_mul_nonneg {a b : Binary64} {x y p : Rat} (ha : value a = .fin x) (hb : value b = .fin y)
    (hp : value (mul a b) = .fin p) (h : 0 ≤ x * y) : 0 ≤ p := by
  obtain ⟨neg, m, e, hmul, hz⟩ := mul_finite ha hb
  rw [hmul] at hp
  rcases lt_or_ge ((m : Rat) * 2 ^ e) ((2 ^ 54 - 1) * 2 ^ 970) with hlt | hge
  · obtain ⟨p', hp', hnearest, -⟩ := (round_spec neg m e).1 hlt
    obtain rfl : p = p' := Extended.fin.inj (hp.symm.trans hp')
    have hzero := hnearest 0 0 (by decide)
    rw [← hz, zero_sub, abs_neg, abs_of_nonneg h] at hzero
    linarith [neg_le_of_abs_le hzero]
  · rw [(round_spec neg m e).2 hge] at hp
    cases hp

theorem value_scaleOfNat_float {c : Nat} (hc : c ≤ 2 ^ 53) : Float64.value (Scale.ofNat c).float = .fin (c : Rat) :=
  Float64.value_ofInt (n := c) (by rw [Nat.abs_cast]; exact_mod_cast hc)

theorem numeric_fmul_exact (q : Rat) (c : Nat) :
    numeric (fmul (.exact q) (Scale.ofNat c)) = .fin (q * c) := by
  change Extended.fin (ratMul q (mkRat (c : Int) 1)) = _
  rw [ratMul_eq, mkRat_one_eq, Int.cast_natCast]

/-- A number whose exact product with the scale is bounded by an integer of at most 53 bits has a scaled product, and
the bound holds of it too, rounded or not. -/
theorem scaledTo_of_bounded {x : Number} {q : Rat} {c B : Nat} (hx : numeric x = .fin q) (hc : c ≤ 2 ^ 53)
    (hB : B ≤ 2 ^ 53) (h : |q * c| ≤ B) : ∃ p, ScaledTo x c p ∧ |p| ≤ B := by
  cases x with
  | binary64 w =>
    obtain ⟨p, hp, hle⟩ := Float64.mul_bounded hx (value_scaleOfNat_float hc) hB h
    exact ⟨p, ⟨⟨q, hx⟩, hp⟩, hle⟩
  | exact r =>
    obtain rfl : r = q := Extended.fin.inj hx
    exact ⟨_, ⟨⟨r, hx⟩, numeric_fmul_exact r c⟩, h⟩

/-- R102: multiplication by 1 does not scale. -/
theorem scaledTo_one {x : Number} {q : Rat} (hx : numeric x = .fin q) : ScaledTo x 1 q := by
  refine ⟨⟨q, hx⟩, ?_⟩
  have hone : q * ((1 : Nat) : Rat) = q := by rw [Nat.cast_one, mul_one]
  cases x with
  | binary64 w =>
    have hmul := Float64.mul_exact (w := w) hx (value_scaleOfNat_float (c := 1) (by norm_num)) (by rw [hone]; exact hx)
    rw [hone] at hmul
    exact hmul
  | exact r =>
    obtain rfl : r = q := Extended.fin.inj hx
    rw [numeric_fmul_exact, hone]

/-- A number that is not negative has no negative scaled product. -/
theorem ScaledTo.nonneg {x : Number} {q p : Rat} {c : Nat} (h : ScaledTo x c p) (hx : numeric x = .fin q)
    (hc : c ≤ 2 ^ 53) (hq : 0 ≤ q) : 0 ≤ p := by
  have hqc : 0 ≤ q * c := mul_nonneg hq (Nat.cast_nonneg c)
  obtain ⟨-, hp⟩ := h
  cases x with
  | binary64 w => exact Float64.value_mul_nonneg hx (value_scaleOfNat_float hc) hp hqc
  | exact r =>
    obtain rfl : r = q := Extended.fin.inj hx
    rw [numeric_fmul_exact] at hp
    exact Extended.fin.inj hp ▸ hqc

/-! ## The conversions to int32 and int16 (R102, R103) -/

theorem conv32_of_scaledTo {x : Number} {c : Nat} {p : Rat} (name : Param) (h : ScaledTo x c p) :
    conv32 x c name =
      if fitsS 32 (trunc p) then .ok (trunc p) else .error (.unrepresentable name (.real x)) := by
  obtain ⟨⟨q, hq⟩, hp⟩ := h
  simp only [conv32, hq, hp]

theorem conv32_of_not_scaledTo {x : Number} {c : Nat} (name : Param) (h : ¬ ∃ p, ScaledTo x c p) :
    conv32 x c name = .error (.unrepresentable name (.real x)) := by
  rcases hx : numeric x with _ | neg | q
  · simp only [conv32, hx]
  · simp only [conv32, hx]
  rcases hp : numeric (fmul x (Scale.ofNat c)) with _ | neg | p
  · simp only [conv32, hx, hp]
  · simp only [conv32, hx, hp]
  · exact absurd ⟨p, ⟨q, hx⟩, hp⟩ h

/-- R102: a scaled product whose truncation fits int32 converts to that truncation. -/
theorem conv32_ok {x : Number} {c : Nat} {p : Rat} (name : Param) (h : ScaledTo x c p) (hlo : -2147483649 < p)
    (hhi : p < 2147483648) : conv32 x c name = .ok (trunc p) := by
  rw [conv32_of_scaledTo name h, if_pos ((fitsS32_trunc_iff p).2 ⟨hlo, hhi⟩)]

/-- R102: everything else is Unrepresentable. -/
theorem conv32_error {x : Number} {c : Nat} (name : Param)
    (h : ¬ ∃ p, ScaledTo x c p ∧ -2147483649 < p ∧ p < 2147483648) :
    conv32 x c name = .error (.unrepresentable name (.real x)) := by
  by_cases hs : ∃ p, ScaledTo x c p
  · obtain ⟨p, hp⟩ := hs
    have hrange : ¬ fitsS 32 (trunc p) = true := fun hfits => h ⟨p, hp, (fitsS32_trunc_iff p).1 hfits⟩
    rw [conv32_of_scaledTo name hp, if_neg hrange]
  · exact conv32_of_not_scaledTo name hs

theorem abs_trunc_le {p : Rat} {B : Nat} (h : |p| ≤ B) : |trunc p| ≤ B := by
  obtain ⟨hlo, hhi⟩ := abs_le.1 h
  refine abs_le.2 ((trunc_bounds_iff p (by omega) (by omega)).2 ⟨?_, ?_⟩)
  · push_cast; linarith
  · push_cast; linarith

/-- A number between the bounds converts without an error, and to an integer within the scaled bound, where that bound
itself fits int32. -/
theorem conv32_of_between {x : Number} {q : Rat} {b c B : Nat} (name : Param) (hx : numeric x = .fin q)
    (hlo : -(b : Rat) ≤ q) (hhi : q ≤ b) (hc : c ≤ 2 ^ 53) (hbc : b * c = B) (hB : B ≤ 2147483647) :
    ∃ p, ScaledTo x c p ∧ |trunc p| ≤ B ∧ conv32 x c name = .ok (trunc p) := by
  have hprod : |q * c| ≤ B := by
    rw [abs_mul, Nat.abs_cast, ← hbc, Nat.cast_mul]
    exact mul_le_mul_of_nonneg_right (abs_le.2 ⟨hlo, hhi⟩) (Nat.cast_nonneg c)
  obtain ⟨p, hp, hpB⟩ := scaledTo_of_bounded hx hc (hB.trans (by norm_num)) hprod
  have hB' : (B : Rat) ≤ 2147483647 := by exact_mod_cast hB
  obtain ⟨h1, h2⟩ := abs_le.1 hpB
  exact ⟨p, hp, abs_trunc_le hpB, conv32_ok name hp (by linarith) (by linarith)⟩

/-- `trunc` of a quotient of integers is the division toward zero. -/
theorem trunc_intCast_div_natCast (k : Int) (d : Nat) : trunc ((k : Rat) / d) = k.tdiv d := by
  have of_nonneg (n : Int) (hn : 0 ≤ n) : trunc ((n : Rat) / d) = n.tdiv d := by
    rw [trunc_of_nonneg (div_nonneg (Int.cast_nonneg hn) (Nat.cast_nonneg d)), Rat.floor_intCast_div_natCast,
      Int.tdiv_eq_ediv_of_nonneg hn]
  rcases le_total 0 k with h | h
  · exact of_nonneg k h
  · have hneg := of_nonneg (-k) (by omega)
    rw [Int.cast_neg, neg_div, trunc_neg, Int.neg_tdiv] at hneg
    exact neg_inj.1 hneg

theorem fitsS16_tdiv_iff (k : Int) : fitsS 16 (tdiv k pvDiv) = true ↔ -327689 ≤ k ∧ k ≤ 327679 := by
  rw [fitsS16_iff, tdiv, pvDiv]
  rcases le_total 0 k with h | h
  · rw [Int.tdiv_eq_ediv_of_nonneg h]
    omega
  · obtain ⟨n, rfl⟩ : ∃ n, k = -n := ⟨-k, by omega⟩
    rw [Int.neg_tdiv, Int.tdiv_eq_ediv_of_nonneg (by omega)]
    omega

/-- R103: a representable integer is divided by 10 toward zero. -/
theorem conv16_ok {k : Int} (name : Param) (hlo : -327689 ≤ k) (hhi : k ≤ 327679) :
    conv16 k name = .ok (k.tdiv 10) := if_pos ((fitsS16_tdiv_iff k).2 ⟨hlo, hhi⟩)

/-- R103: every other integer is Unrepresentable. -/
theorem conv16_error {k : Int} (name : Param) (h : k < -327689 ∨ 327679 < k) :
    conv16 k name = .error (.unrepresentable name (.int k)) :=
  if_neg fun hfits => by
    have := (fitsS16_tdiv_iff k).1 hfits
    omega

/-- Settles O31: the quotient toward zero is the truncated rational quotient. -/
theorem conv16DividesTowardZero : Obligations.Conv16DividesTowardZero := by
  refine fun k name => ⟨fun hlo hhi => ?_, conv16_error name⟩
  have htrunc : trunc ((k : Rat) / 10) = k.tdiv 10 := mod_cast trunc_intCast_div_natCast k 10
  rw [conv16_ok name hlo hhi, htrunc]

/-! ## The ends of the pipeline on a built codec (R100, R106) -/

theorem exec_emits (i : Instr) {p} (hi : packOf i = some p) {s : State} {m : MotorId} {mode : ServoMode} {bs : Payload}
    (hp : p = .ok (mode, bs)) (hm : s.codec = .built m) :
    ∃ t, exec i s = .next t ∧ Emits s t (commandFrame m mode bs) := by
  refine ⟨_, ?_, emits_transmit s _⟩
  rw [exec_of_pack hi, hp]
  simp only [encodeTransaction, hm]

theorem exec_reports (i : Instr) {p} (hi : packOf i = some p) {s : State} {m : MotorId} {e : Error}
    (hp : p = .error e) (hm : s.codec = .built m) : ∃ t, exec i s = .next t ∧ Reports s t (.err e) := by
  refine ⟨raise e s, ?_, rfl⟩
  rw [exec_of_pack hi, hp]
  simp only [encodeTransaction, hm]

end Sys2Proof.Machine
end

section
/-! The seven commands (R110 to R116): what each `pack` gives, and with it the command's frame or its error. -/

namespace Sys2Proof.Machine

/-! ## setDutyCycle (R110) -/

theorem packDutyCycle_ok {x : Number} {n : Int} (hb : within x dutyMax = true)
    (hn : conv32 x dutyScale .duty = .ok n) : packDutyCycle x = .ok (.dutyCycle, p4 n) := by
  simp only [packDutyCycle, requireBound_of_pass hb, hn]

theorem packDutyCycle_outOfRange {x : Number} (hb : ¬ within x dutyMax = true) :
    packDutyCycle x = .error (.outOfRange .duty (.real x)) := by
  simp only [packDutyCycle, requireBound_of_fail hb]

/-- Settles O33: within the bound the conversion cannot fail, since 1 · 100000 fits int32. -/
theorem setDutyCycleEmitsOrRaises : Obligations.SetDutyCycleEmitsOrRaises := by
  refine fun s m x hm => ⟨fun q hx hlo hhi => ?_, fun h => ?_⟩
  · have hb := (within_dutyMax_iff x).2 ⟨q, hx, hlo, hhi⟩
    obtain ⟨p, hp, hle, hn⟩ := conv32_of_between (b := 1) (c := dutyScale) (B := 100000) .duty hx
      (by exact_mod_cast hlo) (by exact_mod_cast hhi) (by decide) rfl (by decide)
    obtain ⟨t, ht, hemit⟩ := exec_emits (.setDutyCycle x) rfl (packDutyCycle_ok hb hn) hm
    exact ⟨p, t, hp, hle, ht, hemit⟩
  · exact exec_reports (.setDutyCycle x) rfl (packDutyCycle_outOfRange (mt (within_dutyMax_iff x).1 h)) hm

/-! ## setCurrent (R111) -/

theorem packCurrent_ok {x : Number} {n : Int} (hn : conv32 x currentScale .current = .ok n) :
    packCurrent x = .ok (.currentLoop, p4 n) := by
  simp only [packCurrent, hn]

theorem packCurrent_error {x : Number} {e : Error} (he : conv32 x currentScale .current = .error e) :
    packCurrent x = .error e := by
  simp only [packCurrent, he]

/-- Settles O34: the two clauses are those of the conversion. -/
theorem setCurrentEmitsOrRaises : Obligations.SetCurrentEmitsOrRaises := by
  refine fun s m x hm => ⟨fun p hp hlo hhi => ?_, fun h => ?_⟩
  · exact exec_emits (.setCurrent x) rfl (packCurrent_ok (conv32_ok .current hp hlo hhi)) hm
  · exact exec_reports (.setCurrent x) rfl (packCurrent_error (conv32_error .current h)) hm

/-! ## setBrakeCurrent (R112) -/

theorem packBrakeCurrent_ok {x : Number} {n : Int} (hb : atLeast 0 x = true)
    (hn : conv32 x currentScale .current = .ok n) : packBrakeCurrent x = .ok (.currentBrake, p4 n) := by
  simp only [packBrakeCurrent, requireBound_of_pass hb, hn]

theorem packBrakeCurrent_outOfRange {x : Number} (hb : ¬ atLeast 0 x = true) :
    packBrakeCurrent x = .error (.outOfRange .current (.real x)) := by
  simp only [packBrakeCurrent, requireBound_of_fail hb]

theorem packBrakeCurrent_error {x : Number} {e : Error} (hb : atLeast 0 x = true)
    (he : conv32 x currentScale .current = .error e) : packBrakeCurrent x = .error e := by
  simp only [packBrakeCurrent, requireBound_of_pass hb, he]

theorem atLeast_zero_iff (x : Number) :
    atLeast 0 x = true ↔ (∃ q, numeric x = .fin q ∧ 0 ≤ q) ∨ numeric x = .inf false := by
  simpa using atLeast_iff 0 x

/-- R112: NaN, minus infinity and the negative numbers fail the bound check. -/
theorem not_atLeast_zero_of {x : Number}
    (h : numeric x = .nan ∨ numeric x = .inf true ∨ ∃ q, numeric x = .fin q ∧ q < 0) :
    ¬ atLeast 0 x = true := by
  rw [atLeast_zero_iff]
  rcases h with h | h | ⟨q, h, hq⟩
  · simp [h]
  · simp [h]
  · simpa [h] using hq

/-- Settles O35: past the bound check the product is not negative, so only the upper end of int32 can be missed. -/
theorem setBrakeCurrentEmitsOrRaises : Obligations.SetBrakeCurrentEmitsOrRaises := by
  refine fun s m x hm => ⟨fun q p hx hq hp hhi => ?_, fun h => ?_, fun h => ?_⟩
  · have hb := (atLeast_zero_iff x).2 (.inl ⟨q, hx, hq⟩)
    have hpos : 0 ≤ p := hp.nonneg hx (by norm_num) hq
    have hn := conv32_ok .current hp (by linarith) hhi
    exact exec_emits (.setBrakeCurrent x) rfl (packBrakeCurrent_ok hb hn) hm
  · exact exec_reports (.setBrakeCurrent x) rfl (packBrakeCurrent_outOfRange (not_atLeast_zero_of h)) hm
  · have hb : atLeast 0 x = true := (atLeast_zero_iff x).2 (h.symm.imp_left fun ⟨q, hx, hq, _⟩ => ⟨q, hx, hq⟩)
    have hnone : ¬ ∃ p, ScaledTo x currentScale p ∧ -2147483649 < p ∧ p < 2147483648 := by
      rintro ⟨p, hp, -, hhi⟩
      rcases h with hinf | ⟨-, -, -, hno⟩
      · obtain ⟨⟨q, hx⟩, -⟩ := hp
        exact Extended.noConfusion (hinf.symm.trans hx)
      · exact hno ⟨p, hp, hhi⟩
    exact exec_reports (.setBrakeCurrent x) rfl (packBrakeCurrent_error hb (conv32_error .current hnone)) hm

/-! ## setVelocity (R113) -/

theorem packVelocity_ok {x : Number} {n : Int} (hn : conv32 x velocityScale .rpm = .ok n) :
    packVelocity x = .ok (.velocityLoop, p4 n) := by
  simp only [packVelocity, hn]

theorem packVelocity_error {x : Number} {e : Error} (he : conv32 x velocityScale .rpm = .error e) :
    packVelocity x = .error e := by
  simp only [packVelocity, he]

/-- Settles O36: the product by 1 is the parameter itself. -/
theorem setVelocityEmitsOrRaises : Obligations.SetVelocityEmitsOrRaises := by
  refine fun s m x hm => ⟨fun q hx hlo hhi => ?_, fun h => ?_⟩
  · exact exec_emits (.setVelocity x) rfl (packVelocity_ok (conv32_ok .rpm (scaledTo_one hx) hlo hhi)) hm
  · have hnone : ¬ ∃ p, ScaledTo x velocityScale p ∧ -2147483649 < p ∧ p < 2147483648 := by
      rintro ⟨p, ⟨⟨q, hx⟩, hp⟩, hrange⟩
      obtain rfl : q = p := Extended.fin.inj ((scaledTo_one hx).2.symm.trans hp)
      exact h ⟨q, hx, hrange⟩
    exact exec_reports (.setVelocity x) rfl (packVelocity_error (conv32_error .rpm hnone)) hm

/-! ## setPosition (R114) -/

/-- R114, R116: degrees within the bound convert without an error, since 36000 · 10000 fits int32. -/
theorem conv32_degrees {x : Number} {q : Rat} (hx : numeric x = .fin q) (hlo : -36000 ≤ q) (hhi : q ≤ 36000) :
    ∃ p, ScaledTo x 10000 p ∧ |trunc p| ≤ 360000000 ∧ conv32 x posScale .degrees = .ok (trunc p) :=
  conv32_of_between (b := 36000) (c := posScale) (B := 360000000) .degrees hx (by exact_mod_cast hlo)
    (by exact_mod_cast hhi) (by decide) rfl (by decide)

theorem packPosition_ok {x : Number} {n : Int} (hb : within x posMax = true)
    (hn : conv32 x posScale .degrees = .ok n) : packPosition x = .ok (.positionLoop, p4 n) := by
  simp only [packPosition, requireBound_of_pass hb, hn]

theorem packPosition_outOfRange {x : Number} (hb : ¬ within x posMax = true) :
    packPosition x = .error (.outOfRange .degrees (.real x)) := by
  simp only [packPosition, requireBound_of_fail hb]

/-- Settles O37: within the bound the conversion cannot fail. -/
theorem setPositionEmitsOrRaises : Obligations.SetPositionEmitsOrRaises := by
  refine fun s m x hm => ⟨fun q hx hlo hhi => ?_, fun h => ?_⟩
  · have hb := (within_posMax_iff x).2 ⟨q, hx, hlo, hhi⟩
    obtain ⟨p, hp, hle, hn⟩ := conv32_degrees hx hlo hhi
    obtain ⟨t, ht, hemit⟩ := exec_emits (.setPosition x) rfl (packPosition_ok hb hn) hm
    exact ⟨p, t, hp, hle, ht, hemit⟩
  · exact exec_reports (.setPosition x) rfl (packPosition_outOfRange (mt (within_posMax_iff x).1 h)) hm

/-! ## setOrigin (R115) -/

/-- Settles O38: `pack` of setOrigin has no check to fail. -/
theorem setOriginEmitsItsByte : Obligations.SetOriginEmitsItsByte :=
  fun _ _ b hm => exec_emits (.setOrigin b) rfl rfl hm

/-! ## setPositionVelocity (R116): one lemma per check, in the order of the checks -/

section
variable {x : Number} {n : Int} {rpm acc : Int}

theorem packPositionVelocity_outOfRange (hb : ¬ within x posMax = true) :
    packPositionVelocity x rpm acc = .error (.outOfRange .degrees (.real x)) := by
  simp only [packPositionVelocity, requireBound_of_fail hb]

variable (hb : within x posMax = true) (hn : conv32 x posScale .degrees = .ok n)
include hb hn

theorem packPositionVelocity_rpm_error {e : Error} (hrpm : conv16 rpm .rpm = .error e) :
    packPositionVelocity x rpm acc = .error e := by
  simp only [packPositionVelocity, requireBound_of_pass hb, hn, hrpm]

theorem packPositionVelocity_acceleration_error {spd : Int} {e : Error} (hrpm : conv16 rpm .rpm = .ok spd)
    (hacc : conv16 acc .acceleration = .error e) : packPositionVelocity x rpm acc = .error e := by
  simp only [packPositionVelocity, requireBound_of_pass hb, hn, hrpm, hacc]

theorem packPositionVelocity_ok {spd a : Int} (hrpm : conv16 rpm .rpm = .ok spd)
    (hacc : conv16 acc .acceleration = .ok a) :
    packPositionVelocity x rpm acc = .ok (.positionVelocityLoop, p8 n spd a) := by
  simp only [packPositionVelocity, requireBound_of_pass hb, hn, hrpm, hacc]

end

/-- Settles O39: each clause is the `pack` lemma of the first check that fails, or of none failing. -/
theorem setPositionVelocityEmitsOrRaises : Obligations.SetPositionVelocityEmitsOrRaises := by
  intro s m x rpm acc hm
  refine ⟨fun q hx hlo hhi hr1 hr2 ha1 ha2 => ?_, fun h => ?_, fun q hx hlo hhi hr => ?_,
    fun q hx hlo hhi hr1 hr2 ha => ?_⟩
  · have hb := (within_posMax_iff x).2 ⟨q, hx, hlo, hhi⟩
    obtain ⟨p, hp, hle, hn⟩ := conv32_degrees hx hlo hhi
    have hpack := packPositionVelocity_ok hb hn (conv16_ok .rpm hr1 hr2) (conv16_ok .acceleration ha1 ha2)
    obtain ⟨t, ht, hemit⟩ := exec_emits (.setPositionVelocity x rpm acc) rfl hpack hm
    exact ⟨p, t, hp, hle, ht, hemit⟩
  · have hb : ¬ within x posMax = true := mt (within_posMax_iff x).1 h
    exact exec_reports (.setPositionVelocity x rpm acc) rfl (packPositionVelocity_outOfRange hb) hm
  · have hb := (within_posMax_iff x).2 ⟨q, hx, hlo, hhi⟩
    obtain ⟨p, -, -, hn⟩ := conv32_degrees hx hlo hhi
    have hpack := packPositionVelocity_rpm_error (acc := acc) hb hn (conv16_error .rpm hr)
    exact exec_reports (.setPositionVelocity x rpm acc) rfl hpack hm
  · have hb := (within_posMax_iff x).2 ⟨q, hx, hlo, hhi⟩
    obtain ⟨p, -, -, hn⟩ := conv32_degrees hx hlo hhi
    have hpack :=
      packPositionVelocity_acceleration_error hb hn (conv16_ok .rpm hr1 hr2) (conv16_error .acceleration ha)
    exact exec_reports (.setPositionVelocity x rpm acc) rfl hpack hm

end Sys2Proof.Machine
end

section
/-! The status format S8 (R67, R152): eight bytes extract to the fields `rawOf` reads, and the format lays them out
again. -/

namespace Sys2Proof.Machine

/-! ## A field of S8: two bytes, or one -/

/-- R67: a big-endian pair of bytes read as signed is the two's-complement reading of the pair as one pattern. -/
theorem sext_append (hi lo : Byte) : sext (hi ++ lo : BitVec 16) = signed16 hi lo := by
  rw [sext, BitVec.toInt_append, signed16]
  norm_num [mul_comm]

theorem extractLsb'_append_self (w : BitVec 16) : (w.extractLsb' 8 8 ++ w.extractLsb' 0 8 : BitVec 16) = w := by
  rw [BitVec.extractLsb'_append_extractLsb'_eq_extractLsb' (by rfl), BitVec.extractLsb'_eq_self]

theorem signed16_extractLsb' (w : BitVec 16) : signed16 (w.extractLsb' 8 8) (w.extractLsb' 0 8) = sext w := by
  rw [← sext_append, extractLsb'_append_self]

theorem beBytes16_append (hi lo : Byte) : beBytes16 (hi ++ lo : BitVec 16) = [hi, lo] := by
  rw [beBytes16_eq, BitVec.extractLsb'_append_eq_left, BitVec.extractLsb'_append_eq_right]

theorem beBytes8_eq (w : BitVec 8) : beBytes8 w = [w] := by simp [beBytes8, beBytesNat]

/-- R11: a number of two bytes is the pattern of the pair. -/
theorem ofNat_beWordNat_pair (hi lo : Byte) : BitVec.ofNat 16 (beWordNat [hi, lo]) = hi ++ lo := by
  have hlo := lo.isLt
  have hhi := hi.isLt
  apply BitVec.eq_of_toNat_eq
  rw [BitVec.toNat_ofNat, BitVec.toNat_append, ← Nat.shiftLeft_add_eq_or_of_lt hlo, Nat.shiftLeft_eq]
  simp only [beWordNat, List.length_cons, List.length_nil]
  omega

theorem ofNat_beWordNat_single (b : Byte) : BitVec.ofNat 8 (beWordNat [b]) = b := by simp [beWordNat]

/-! ## All of S8 -/

theorem exists_cons8 {bs : Payload} (h : 8 ≤ bs.length) :
    ∃ b0 b1 b2 b3 b4 b5 b6 b7 rest, bs = b0 :: b1 :: b2 :: b3 :: b4 :: b5 :: b6 :: b7 :: rest := by
  match bs, h with
  | b0 :: b1 :: b2 :: b3 :: b4 :: b5 :: b6 :: b7 :: rest, _ => exact ⟨b0, b1, b2, b3, b4, b5, b6, b7, rest, rfl⟩

/-- R151, R152: the first eight bytes are extracted as `rawOf` reads them, whatever follows. -/
theorem extract_cons8 (b0 b1 b2 b3 b4 b5 b6 b7 : Byte) (rest : Payload) :
    extract (b0 :: b1 :: b2 :: b3 :: b4 :: b5 :: b6 :: b7 :: rest) = rawOf b0 b1 b2 b3 b4 b5 b6 b7 := by
  simp only [extract, memRead, List.drop, List.take, ofNat_beWordNat_pair, ofNat_beWordNat_single, sext_append]
  rfl

/-- R67: the fields that `rawOf` reads from eight bytes lay out as those bytes. -/
theorem encodeStatus_rawOf (b0 b1 b2 b3 b4 b5 b6 b7 : Byte) :
    encodeStatus (signed16 b0 b1) (signed16 b2 b3) (signed16 b4 b5) b6.toInt b7.toNat =
      [b0, b1, b2, b3, b4, b5, b6, b7] := by
  have herr : BitVec.ofInt 8 (b7.toNat : Int) = b7 := by simp
  have htemp : tc 8 b6.toInt = b6 := tc_sext b6
  simp only [encodeStatus, ← sext_append, tc_sext, beBytes16_append, beBytes8_eq, herr, htemp, List.cons_append,
    List.nil_append]

theorem fitsS8_iff (n : Int) : fitsS 8 n = true ↔ -128 ≤ n ∧ n ≤ 127 := by
  simp [fitsS]

/-- R67, R152: fields in their ranges are extracted from their layout unchanged. -/
theorem extract_encodeStatus {pos speed cur temp err : Int} (hpos : fitsS 16 pos = true) (hspeed : fitsS 16 speed = true)
    (hcur : fitsS 16 cur = true) (htemp : fitsS 8 temp = true) (herr0 : 0 ≤ err) (herr1 : err ≤ 255) :
    extract (encodeStatus pos speed cur temp err) =
      { posRaw := pos, speedRaw := speed, curRaw := cur, temp := temp, err := err } := by
  have herr : ((BitVec.ofInt 8 err).toNat : Int) = err := by
    rw [BitVec.toNat_ofInt]; omega
  simp only [encodeStatus, beBytes16_eq, beBytes8_eq, List.cons_append, List.nil_append, extract_cons8, rawOf,
    signed16_extractLsb', sext_tc (by decide) hpos, sext_tc (by decide) hspeed, sext_tc (by decide) hcur, herr]
  rw [show (tc 8 temp).toInt = temp from sext_tc (by decide) htemp]

/-- Settles O12: both directions are read off the list of the eight bytes. -/
theorem statusFormatRoundTrip : Obligations.StatusFormatRoundTrip := by
  refine ⟨fun raw hp0 hp1 hs0 hs1 hc0 hc1 ht0 ht1 he0 he1 => ?_, fun bs hlen => ?_⟩
  · exact extract_encodeStatus ((fitsS16_iff _).2 ⟨hp0, hp1⟩) ((fitsS16_iff _).2 ⟨hs0, hs1⟩)
      ((fitsS16_iff _).2 ⟨hc0, hc1⟩) ((fitsS8_iff _).2 ⟨ht0, ht1⟩) he0 he1
  · obtain ⟨b0, b1, b2, b3, b4, b5, b6, b7, rest, rfl⟩ := exists_cons8 hlen.ge
    obtain rfl : rest = [] := by simpa using hlen
    rw [extract_cons8]
    exact encodeStatus_rawOf b0 b1 b2 b3 b4 b5 b6 b7

end Sys2Proof.Machine
end

section
/-! readStatus (R150 to R157): what it reports for each answer of `receive`, and the scaled values of a status. -/

namespace Sys2Proof.Machine

/-! ## What one readStatus does -/

/-- R150, R157: on a built instance readStatus is one `receive`, and reports what its answer decodes to. -/
theorem exec_readStatus_receives {s : State} {m : MotorId} {a : ReceiveAnswer} (w : Option Duration)
    (hm : s.codec = .built m) (ha : NextReceive s a) :
    ∃ t, exec (.readStatus w) s = .next t ∧ Receives s t w a (decodeAnswer s.arith a) := by
  obtain rfl := (nextReceive_iff s a).1 ha
  exact ⟨_, exec_readStatus_of_built w hm, (receives_iff ..).2 ⟨rfl, rfl⟩⟩

/-- R22: on an Unbuilt instance readStatus is refused. -/
theorem exec_readStatus_of_unbuilt {s : State} (w : Option Duration) (hc : s.codec = .unbuilt) :
    exec (.readStatus w) s = .next (report .refused s) := by
  change statusTransaction w s = _
  simp only [statusTransaction, hc, refuse]

/-- R151: fewer than eight bytes are no data. -/
theorem decodePayload_of_short (a : Arith) {bs : Payload} (h : bs.length < 8) : decodePayload a bs = .noData :=
  if_pos h

/-- R151, R152: eight bytes or more are a status of the first eight. -/
theorem decodePayload_cons8 (a : Arith) (b0 b1 b2 b3 b4 b5 b6 b7 : Byte) (rest : Payload) :
    decodePayload a (b0 :: b1 :: b2 :: b3 :: b4 :: b5 :: b6 :: b7 :: rest) =
      .status (scaleStatus a (rawOf b0 b1 b2 b3 b4 b5 b6 b7)) (rawOf b0 b1 b2 b3 b4 b5 b6 b7) := by
  have hlen : ¬ (b0 :: b1 :: b2 :: b3 :: b4 :: b5 :: b6 :: b7 :: rest).length < 8 := by
    simp only [List.length_cons]
    omega
  rw [decodePayload, if_neg hlen, extract_cons8]

/-- R156: an answer decodes to an error exactly where it is the transport's own. -/
theorem decodeAnswer_eq_err_iff (a : Arith) (x : ReceiveAnswer) (e : Error) :
    decodeAnswer a x = .err e ↔ ∃ e', x = .failed e' ∧ e = .transportError e' := by
  rcases decodeAnswer_cases a x with h | ⟨e', rfl, h⟩ | ⟨bs, rfl, -, h⟩
  · rw [h]
    constructor
    · rintro ⟨⟩
    · rintro ⟨e', rfl, -⟩
      cases h
  · simp [h, eq_comm]
  · simp [h]

/-- Settles O44: each clause is `exec_readStatus_receives` with what its answer decodes to. -/
theorem readStatusClassifiesAndDecodes : Obligations.ReadStatusClassifiesAndDecodes := by
  refine fun s m w hm => ⟨fun ha => ?_, fun bs ha hlen => ?_, fun b0 b1 b2 b3 b4 b5 b6 b7 rest ha => ?_⟩
  · exact exec_readStatus_receives w hm ha
  · rw [← decodePayload_of_short s.arith hlen]
    exact exec_readStatus_receives w hm ha
  · have h := exec_readStatus_receives w hm ha
    rw [decodeAnswer, decodePayload_cons8] at h
    exact h

/-- Settles O46: both instances report the decoding of the one answer in the one number domain. -/
theorem decodingDependsOnTheAnswerAlone : Obligations.DecodingDependsOnTheAnswerAlone := by
  intro s s' m m' w w' a hm hm' harith ha ha'
  obtain ⟨t, ht, hrec⟩ := exec_readStatus_receives w hm ha
  obtain ⟨t', ht', hrec'⟩ := exec_readStatus_receives w' hm' ha'
  exact ⟨t, t', _, ht, ht', hrec, harith ▸ hrec'⟩

/-- Settles O47: an Unbuilt instance reports a refusal, and a built one the decoding of the answer. -/
theorem decodeNeverRaises : Obligations.DecodeNeverRaises := by
  intro s t w e h
  rcases hc : s.codec with _ | m
  · rw [exec_readStatus_of_unbuilt w hc, Host.Outcome.next.injEq] at h
    have hres : t.results = s.results ++ [.refused] := by rw [← h, report_results]
    simp [hres]
  · rw [exec_readStatus_of_built w hc, Host.Outcome.next.injEq] at h
    have hres : t.results = s.results ++ [decodeAnswer s.arith (receiveAnswer s)] := by
      rw [← h, report_results, receive_results]
    simp [hres, decodeAnswer_eq_err_iff, nextReceive_iff, eq_comm]

/-! ## The scaled values (R154) -/

/-- Settles O27: it is the law of the conversion. -/
theorem integersConvertExactly : Obligations.IntegersConvertExactly := fun _ h => Float64.value_ofInt h

/-- R12: an integer times an integer constant is exact in both domains while the product has at most 53 bits. -/
theorem numeric_fmul_ofInt (a : Arith) {n : Int} {c : Nat} (hn : |n| ≤ 2 ^ 53) (hc : c ≤ 2 ^ 53)
    (hnc : |n * c| ≤ 2 ^ 53) : numeric (fmul (ofInt a n) (Scale.ofNat c)) = .fin (n * c) := by
  cases a with
  | binary64 =>
    have hprod := Float64.value_ofInt hnc
    rw [Int.cast_mul, Int.cast_natCast] at hprod
    exact Float64.mul_exact (Float64.value_ofInt hn) (value_scaleOfNat_float hc) hprod
  | exact => rw [ofInt, numeric_fmul_exact, mkRat_one_eq]

/-- R12: an exact integer times a constant that is exactly one over `d` is the quotient. -/
theorem numeric_fmul_exact_inv (n : Int) {c : Scale} {d : Nat} (hc : c.exact = mkRat 1 d) :
    numeric (fmul (ofInt .exact n) c) = .fin ((n : Rat) / d) := by
  change Extended.fin (ratMul (mkRat n 1) c.exact) = _
  rw [ratMul_eq, mkRat_one_eq, hc, Rat.mkRat_eq_div, Int.cast_one, mul_one_div]

@[simp] theorem fmul_inDomain (a : Arith) (x : Number) (c : Scale) : (fmul x c).inDomain a = x.inDomain a := by
  cases x <;> rfl

@[simp] theorem ofInt_inDomain (a : Arith) (n : Int) : (ofInt a n).inDomain a = true := by
  cases a <;> rfl

/-- Settles O45: the speed by exactness of small integer products, the rest by the definition of the constants. -/
theorem statusScalingValues : Obligations.StatusScalingValues := by
  refine ⟨fun a raw hlo hhi => ?_, fun raw => ⟨?_, ?_⟩, fun a raw => ⟨?_, ?_, ?_⟩, fun a raw => ⟨rfl, rfl⟩⟩
  · have hn : |raw.speedRaw| ≤ 32768 := abs_le.2 ⟨hlo, by omega⟩
    have hnc : |raw.speedRaw * (10 : Nat)| ≤ 327680 := abs_le.2 ⟨by omega, by omega⟩
    exact numeric_fmul_ofInt a (hn.trans (by norm_num)) (by norm_num) (hnc.trans (by norm_num))
  · exact numeric_fmul_exact_inv raw.posRaw (c := stPosScale) (d := 10) rfl
  · exact numeric_fmul_exact_inv raw.curRaw (c := stCurScale) (d := 100) rfl
  all_goals simp [scaleStatus]

end Sys2Proof.Machine
end

section
/-! The invariant of the reported statuses (R155). -/

namespace Sys2Proof.Machine

/-- What `StatusInRange` says of one result. -/
def Result.InRange (x : Result) : Prop :=
  ∀ r raw, x = .status r raw →
    (-32768 ≤ raw.posRaw ∧ raw.posRaw ≤ 32767) ∧ (-32768 ≤ raw.speedRaw ∧ raw.speedRaw ≤ 32767) ∧
      (-32768 ≤ raw.curRaw ∧ raw.curRaw ≤ 32767) ∧ (-128 ≤ raw.temp ∧ raw.temp ≤ 127) ∧
      (0 ≤ raw.err ∧ raw.err ≤ 255) ∧ r.temperature = raw.temp ∧ r.errorCode = raw.err

theorem statusInRange_iff (s : State) : StatusInRange s ↔ ∀ x ∈ s.results, x.InRange :=
  ⟨fun h _ hx r raw hr => h r raw (hr ▸ hx), fun h r raw hr => h _ hr r raw rfl⟩

/-- Only the results matter, and one more keeps the invariant where it is in range itself. -/
theorem StatusInRange.append {s t : State} {x : Result} (h : StatusInRange s) (hx : x.InRange)
    (ht : t.results = s.results ++ [x]) : StatusInRange t := by
  rw [statusInRange_iff] at h ⊢
  rw [ht]
  intro y hy
  rcases List.mem_append.1 hy with hy | hy
  · exact h y hy
  · rwa [List.mem_singleton.1 hy]

/-- A result that is no status is in range. -/
theorem Result.inRange_of_ne {x : Result} (h : ∀ r raw, x ≠ .status r raw) : x.InRange :=
  fun r raw hx => absurd hx (h r raw)

theorem sendResult_ne_status (f : Frame) (a : SendAnswer) (r : StatusReport) (raw : StatusRaw) :
    sendResult f a ≠ .status r raw := by
  cases a <;> simp [sendResult]

/-- R155: what an answer decodes to is in range, each raw field by the width of the field it is extracted from. -/
theorem decodeAnswer_inRange (a : Arith) (x : ReceiveAnswer) : (decodeAnswer a x).InRange := by
  rcases decodeAnswer_cases a x with h | ⟨e, -, h⟩ | ⟨bs, -, -, h⟩
  · exact Result.inRange_of_ne (by simp [h])
  · exact Result.inRange_of_ne (by simp [h])
  · rw [h]
    rintro _ _ ⟨⟩
    have herr : ((memRead bs 7 1 8).toNat : Int) ≤ 255 := by
      have := (memRead bs 7 1 8).isLt
      omega
    exact ⟨(fitsS16_iff _).1 (fitsS_sext _), (fitsS16_iff _).1 (fitsS_sext _), (fitsS16_iff _).1 (fitsS_sext _),
      (fitsS8_iff _).1 (fitsS_sext _), ⟨Int.natCast_nonneg _, herr⟩, rfl, rfl⟩

/-- R155, R186: a transaction reports one result, and that one is in range. -/
theorem Effect.results_inRange {s t : State} (h : Effect s t) : ∃ x, t.results = s.results ++ [x] ∧ x.InRange := by
  cases h with
  | reported x _ hst => exact ⟨x, rfl, Result.inRange_of_ne hst⟩
  | sent m mode bs => exact ⟨_, rfl, Result.inRange_of_ne (sendResult_ne_status _ _)⟩
  | received w m => exact ⟨_, rfl, decodeAnswer_inRange _ _⟩

/-- Settles O52: a step appends no result, one of a construction, or one of an operation's effect. -/
theorem stepKeepsStatusInRange : Obligations.StepKeepsStatusInRange := by
  intro s t hs h
  rcases step_cases h with ⟨-, rfl⟩ | ⟨v, rest, -, -, ⟨-, -, rfl⟩ | ⟨-, rfl⟩⟩ | ⟨r, rest, i, -, -, heff⟩
  · exact hs
  · exact hs.append (Result.inRange_of_ne (by simp)) rfl
  · exact hs.append (Result.inRange_of_ne (by simp)) rfl
  · obtain ⟨x, hres, hx⟩ := heff.results_inRange
    exact hs.append hx hres

end Sys2Proof.Machine
end

section
/-! Transport errors (R105, R184): what a transaction that called the transport reports where the call failed. -/

namespace Sys2Proof.Machine

/-- An operation that answers a next state has one of the transaction's effects. -/
theorem effect_of_exec {i : Instr} {s t : State} (h : exec i s = .next t) : Effect s t := by
  obtain ⟨t', ht', heff⟩ := exec_effect i s
  obtain rfl : t' = t := Host.Outcome.next.inj (ht'.symm.trans h)
  exact heff

/-- R105: the one effect that calls `send` is the emission of the call's frame, and the call holds `send`'s answer. -/
theorem Effect.emits_of_sends {s t : State} {c : SendCall} (heff : Effect s t) (hc : t.sends = s.sends ++ [c]) :
    t = transmit c.frame s ∧ c.answer = sendAnswer s := by
  have hne : t.sends ≠ s.sends := by rw [hc]; simp
  cases heff with
  | reported r => exact absurd (report_sends r s) hne
  | received w m => exact absurd ((report_sends _ _).trans (receive_sends w s)) hne
  | sent m mode bs =>
    rw [transmit, report_sends, emit_sends, List.append_cancel_left_eq, List.singleton_inj] at hc
    exact hc ▸ ⟨rfl, rfl⟩

@[simp] theorem transmit_codec (f : Frame) (s : State) : (transmit f s).codec = s.codec := rfl

@[simp] theorem transmit_results (f : Frame) (s : State) :
    (transmit f s).results = s.results ++ [sendResult f (sendAnswer s)] := rfl

theorem sendAnswer_of_cons {s : State} {a : SendAnswer} {rest : List SendAnswer} (h : s.tx = a :: rest) :
    sendAnswer s = a := by
  simp only [sendAnswer, h]

/-- Settles O42: an operation that called `send` is the emission of its frame, whose result is read off `send`'s
answer; readStatus reports what `receive`'s answer decodes to, and a failure decodes to the transport's own error. -/
theorem transportErrorsPassUnmodified : Obligations.TransportErrorsPassUnmodified := by
  refine ⟨fun i s m e reached rest c t _ htx h hc => ?_, fun w s m e rest hm hrx => ?_⟩
  · obtain ⟨rfl, hanswer⟩ := (effect_of_exec h).emits_of_sends hc
    have hfail : sendAnswer s = .failed e reached := sendAnswer_of_cons htx
    exact ⟨hanswer.trans hfail, by rw [transmit_results, hfail, sendResult], transmit_codec _ _⟩
  · have hnext : NextReceive s (.failed e) := .inl (by rw [hrx, List.head?_cons])
    exact exec_readStatus_receives w hm hnext

end Sys2Proof.Machine
end

section
/-! Construction (R210, R181, R211): the step that accepts a construction, and what it answers on an Unbuilt
instance. -/

namespace Sys2Proof.Machine

/-- R214: the construction leaves the caller's list, and is completed in the state without it. -/
theorem step_of_construct {s : State} {v : Int} {rest : List Request} (h : s.requests = .construct v :: rest) :
    step s = construct v { s with requests := rest } := by
  simp only [step, accept, h]

theorem construct_of_mem_range {s : State} {v : Int} (hs : s.codec = .unbuilt) (hv : 0 ≤ v ∧ v ≤ 255) :
    construct v s = .next (report .built { s with codec := .built (BitVec.ofInt 8 v) }) := by
  simp only [construct, hs, if_pos hv]

theorem construct_of_not_mem_range {s : State} {v : Int} (hs : s.codec = .unbuilt) (hv : ¬ (0 ≤ v ∧ v ≤ 255)) :
    construct v s = .next (raise (.invalidIdentifier v) s) := by
  simp only [construct, hs, if_neg hv]

/-- The integers of [0, 255] are the values of MOTOR_ID: none is wrapped when it is loaded. -/
theorem toNat_ofInt_motorId {v : Int} (h0 : 0 ≤ v) (h255 : v ≤ 255) :
    ((BitVec.ofInt 8 v : MotorId).toNat : Int) = v := by
  rw [BitVec.toNat_ofInt]
  omega

/-- Settles O19: an integer in [0, 255] is the value of the MOTOR_ID it loads, and any other fails the range check. -/
theorem constructionLoadsMotorIdOrRaises : Obligations.ConstructionLoadsMotorIdOrRaises := by
  intro s v rest hs hr
  rw [step_of_construct hr]
  refine ⟨fun h0 h255 => ⟨BitVec.ofInt 8 v, toNat_ofInt_motorId h0 h255, ?_⟩, fun hv => ?_⟩
  · exact construct_of_mem_range hs ⟨h0, h255⟩
  · exact construct_of_not_mem_range hs (by omega)

end Sys2Proof.Machine
end

section
/-! Decoding and encoding a command frame (R60 to R66, R69): both round trips, and which frames decode. -/

namespace Sys2Proof.Machine

/-! ## A field at its place in a payload -/

theorem length_of_encodeField32 {s : Nat} (hs : s ≠ 0) {x : Number} {fld : Payload}
    (h : encodeField32 s x = some fld) : fld.length = 4 := by
  obtain ⟨n, -, -, rfl⟩ := encodeField32_some hs h
  exact length_beBytesNat _ _

theorem length_of_encodeField16 {k : Int} {fld : Payload} (h : encodeField16 k = some fld) : fld.length = 2 := by
  obtain ⟨n, -, -, rfl⟩ := encodeField16_some h
  exact length_beBytesNat _ _

/-- A 32-bit field is read as the value it was encoded from, wherever it stands in the payload. -/
theorem fieldNumber_of_encodeField32 {s : Nat} (hs : s ≠ 0) {x : Number} {fld : Payload} (pre post : Payload)
    (h : encodeField32 s x = some fld) : fieldNumber (pre ++ fld ++ post) pre.length s = x := by
  obtain ⟨n, hn, rfl, rfl⟩ := encodeField32_some hs h
  have hread : memRead (pre ++ beBytes32 (tc 32 n) ++ post) pre.length 4 32 = tc 32 n :=
    memRead_beBytes (k := 4) pre post (tc 32 n)
  rw [fieldNumber, hread, sext_tc (by decide) hn]

theorem fieldTens_of_encodeField16 {k : Int} {fld : Payload} (pre post : Payload) (h : encodeField16 k = some fld) :
    fieldTens (pre ++ fld ++ post) pre.length = k := by
  obtain ⟨n, hn, rfl, rfl⟩ := encodeField16_some h
  have hread : memRead (pre ++ beBytes16 (tc 16 n) ++ post) pre.length 2 16 = tc 16 n :=
    memRead_beBytes (k := 2) pre post (tc 16 n)
  rw [fieldTens, hread, sext_tc (by decide) hn]

/-- The value a 32-bit field is read as encodes to the field's own bytes. -/
theorem encodeField32_fieldNumber {s : Nat} (hs : s ≠ 0) (pre : Payload) {fld : Payload} (post : Payload)
    (h : fld.length = 4) : encodeField32 s (fieldNumber (pre ++ fld ++ post) pre.length s) = some fld := by
  rw [fieldNumber, encodeField32_mkRat hs (fitsS_sext _), tc_sext]
  exact congrArg some (beBytes_memRead pre fld post h)

theorem encodeField16_fieldTens (pre : Payload) {fld : Payload} (post : Payload) (h : fld.length = 2) :
    encodeField16 (fieldTens (pre ++ fld ++ post) pre.length) = some fld := by
  rw [fieldTens, encodeField16_mul (fitsS_sext _), tc_sext]
  exact congrArg some (beBytes_memRead pre fld post h)

/-- The one field of a P4 payload (R64). -/
theorem encodeField32_fieldNumber_zero {s : Nat} (hs : s ≠ 0) {bs : Payload} (h : bs.length = 4) :
    encodeField32 s (fieldNumber bs 0 s) = some bs := by
  simpa using encodeField32_fieldNumber hs [] [] h

theorem fieldNumber_zero_of_encodeField32 {s : Nat} (hs : s ≠ 0) {x : Number} {bs : Payload}
    (h : encodeField32 s x = some bs) : fieldNumber bs 0 s = x := by
  simpa using fieldNumber_of_encodeField32 hs [] [] h

theorem memRead_single (b : Byte) : memRead [b] 0 1 8 = b := ofNat_beWordNat_single b

/-! ## The operands of a payload -/

/-- The bytes of a P8 payload are its three fields' (R66). -/
theorem encodeOperands_setPositionVelocity_eq_some_iff {x : Number} {rpm acc : Int} {bs : Payload} :
    encodeOperands (.setPositionVelocity x rpm acc) = some bs ↔
      ∃ pos spd a, encodeField32 posScale x = some pos ∧ encodeField16 rpm = some spd ∧
        encodeField16 acc = some a ∧ bs = pos ++ spd ++ a := by
  rw [encodeOperands]
  rcases encodeField32 posScale x with _ | pos <;> rcases encodeField16 rpm with _ | spd <;>
    rcases encodeField16 acc with _ | a <;> simp [eq_comm]

/-- Decoding the payload of an operation's operands gives the operation back. -/
theorem decodeOperands_of_encodeOperands {i : Instr} {mode : ServoMode} {bs : Payload} (hmode : i.mode? = some mode)
    (h : encodeOperands i = some bs) : bs.length = payloadLength mode ∧ decodeOperands mode bs = .ok i := by
  have p4_ok {s : Nat} (hs : s ≠ 0) {x : Number} (hx : encodeField32 s x = some bs) :
      bs.length = 4 ∧ fieldNumber bs 0 s = x :=
    ⟨length_of_encodeField32 hs hx, fieldNumber_zero_of_encodeField32 hs hx⟩
  cases i <;> cases hmode
  case setOrigin b =>
    obtain rfl := Option.some.inj h
    cases b <;> exact ⟨rfl, rfl⟩
  case setPositionVelocity x rpm acc =>
    obtain ⟨pos, spd, a, hpos, hspd, ha, rfl⟩ := encodeOperands_setPositionVelocity_eq_some_iff.1 h
    have hposLen := length_of_encodeField32 (by decide) hpos
    have hspdLen := length_of_encodeField16 hspd
    have haLen := length_of_encodeField16 ha
    have hx : fieldNumber (pos ++ spd ++ a) 0 posScale = x := by
      simpa using fieldNumber_of_encodeField32 (by decide) [] (spd ++ a) hpos
    have hrpm : fieldTens (pos ++ spd ++ a) 4 = rpm := by
      simpa [hposLen] using fieldTens_of_encodeField16 pos a hspd
    have hacc : fieldTens (pos ++ spd ++ a) 6 = acc := by
      simpa [hposLen, hspdLen] using fieldTens_of_encodeField16 (pos ++ spd) [] ha
    refine ⟨by simp [hposLen, hspdLen, haLen, payloadLength], ?_⟩
    rw [decodeOperands, hx, hrpm, hacc]
  all_goals
    obtain ⟨hlen, hx⟩ := p4_ok (by decide) h
    exact ⟨hlen, by rw [decodeOperands, hx]⟩

/-- R69: an origin payload decodes exactly where its byte is 0x00 or 0x01, to the operation of that byte. -/
theorem decodeOperands_setOrigin_eq_ok_iff {b : Byte} {i : Instr} :
    decodeOperands .setOrigin [b] = .ok i ↔ ∃ permanent, b = (if permanent then 1 else 0) ∧ i = .setOrigin permanent := by
  have hb : decodeOperands .setOrigin [b] =
      if b = 0 then .ok (.setOrigin false)
      else if b = 1 then .ok (.setOrigin true) else .error (.reservedOriginByte b) := by
    simp only [decodeOperands, memRead_single]
  rw [hb]
  split_ifs with h0 h1
  · simp [h0, eq_comm]
  · simp [h1, eq_comm]
  · refine iff_of_false (by simp) ?_
    rintro ⟨_ | _, rfl, -⟩
    · exact h0 rfl
    · exact h1 rfl

/-- What a payload of the mode's length decodes to encodes to that payload. -/
theorem encodeOperands_of_decodeOperands {mode : ServoMode} {bs : Payload} {i : Instr}
    (hlen : bs.length = payloadLength mode) (h : decodeOperands mode bs = .ok i) :
    i.mode? = some mode ∧ encodeOperands i = some bs := by
  cases mode
  case setOrigin =>
    obtain ⟨b, rfl⟩ := List.length_eq_one_iff.1 hlen
    obtain ⟨permanent, rfl, rfl⟩ := decodeOperands_setOrigin_eq_ok_iff.1 h
    exact ⟨rfl, rfl⟩
  case positionVelocityLoop =>
    obtain rfl := Except.ok.inj h
    obtain ⟨b0, b1, b2, b3, b4, b5, b6, b7, rest, rfl⟩ := exists_cons8 hlen.ge
    obtain rfl : rest = [] := by simpa [payloadLength] using hlen
    refine ⟨rfl, encodeOperands_setPositionVelocity_eq_some_iff.2
      ⟨[b0, b1, b2, b3], [b4, b5], [b6, b7], ?_, ?_, ?_, rfl⟩⟩
    · simpa using encodeField32_fieldNumber (fld := [b0, b1, b2, b3]) (by decide) [] [b4, b5, b6, b7] rfl
    · simpa using encodeField16_fieldTens (fld := [b4, b5]) [b0, b1, b2, b3] [b6, b7] rfl
    · simpa using encodeField16_fieldTens (fld := [b6, b7]) [b0, b1, b2, b3, b4, b5] [] rfl
  all_goals
    obtain rfl := Except.ok.inj h
    exact ⟨rfl, encodeField32_fieldNumber_zero (by decide) hlen⟩

/-! ## The frame -/

theorem encode_eq_some_iff {m : MotorId} {i : Instr} {f : Frame} :
    encode m i = some f ↔
      ∃ mode bs, i.mode? = some mode ∧ encodeOperands i = some bs ∧ f = commandFrame m mode bs := by
  rw [encode]
  rcases i.mode? with _ | mode <;> rcases encodeOperands i with _ | bs <;> simp [eq_comm]

/-- An operation has a frame exactly where it is well-formed. -/
theorem encode_isSome (m : MotorId) (i : Instr) : (encode m i).isSome = i.wellFormed := by
  cases i with
  | setDutyCycle x => exact Laws.Encodable.setDutyCycle x m
  | setCurrent x => exact Laws.Encodable.setCurrent x m
  | setBrakeCurrent x => exact Laws.Encodable.setBrakeCurrent x m
  | setVelocity x => exact Laws.Encodable.setVelocity x m
  | setPosition x => exact Laws.Encodable.setPosition x m
  | setOrigin b => exact Laws.Encodable.setOrigin b m
  | setPositionVelocity x rpm acc => exact Laws.Encodable.setPositionVelocity x rpm acc m
  | readStatus w => exact Laws.Encodable.readStatus w m

theorem exists_encode_of_wellFormed (m : MotorId) {i : Instr} (h : i.wellFormed = true) :
    ∃ mode bs, i.mode? = some mode ∧ encodeOperands i = some bs ∧ encode m i = some (commandFrame m mode bs) := by
  obtain ⟨f, hf⟩ := Option.isSome_iff_exists.1 ((encode_isSome m i).trans h)
  obtain ⟨mode, bs, hmode, hbs, rfl⟩ := encode_eq_some_iff.1 hf
  exact ⟨mode, bs, hmode, hbs, hf⟩

/-- Settles O7: the frame is the encoder's, and its operands decode to the operation. -/
theorem decodeOfEncode : Obligations.DecodeOfEncode := by
  intro m i hwf
  obtain ⟨mode, bs, hmode, hbs, hf⟩ := exists_encode_of_wellFormed m hwf
  obtain ⟨hlen, hdec⟩ := decodeOperands_of_encodeOperands hmode hbs
  exact ⟨_, hf, by rw [decodeCommand_commandFrame m hlen, hdec]⟩

/-- Settles O8: a frame that decodes is the command frame of its own fields, and its payload is its operands' own. -/
theorem encodeOfDecode : Obligations.EncodeOfDecode := by
  intro f m i h
  obtain ⟨mode, hf, hlen, hdec⟩ := decodeCommand_ok h
  obtain ⟨hmode, hbs⟩ := encodeOperands_of_decodeOperands hlen hdec
  have henc : encode m i = some f := encode_eq_some_iff.2 ⟨mode, f.payload, hmode, hbs, hf⟩
  exact ⟨by rw [← encode_isSome m i, henc, Option.isSome_some], henc⟩

/-! ## Which frames decode -/

/-- R65, R69: of the payloads of the mode's length, the allowed ones decode. -/
theorem exists_decodeOperands_iff {mode : ServoMode} {bs : Payload} (hlen : bs.length = payloadLength mode) :
    (∃ i, decodeOperands mode bs = .ok i) ↔ payloadAllowed mode bs = true := by
  cases mode
  case setOrigin =>
    obtain ⟨b, rfl⟩ := List.length_eq_one_iff.1 hlen
    simp [decodeOperands_setOrigin_eq_ok_iff, payloadAllowed, payloadLength, exists_or]
  all_goals
    exact iff_of_true ⟨_, rfl⟩ (by simp [payloadAllowed, hlen])

/-- Settles O9: the frames of the map are the command frames with an allowed payload, and those decode. -/
theorem decoderTakesExactlyTheMap : Obligations.DecoderTakesExactlyTheMap := by
  intro f
  constructor
  · rintro ⟨m, i, h⟩
    obtain ⟨mode, hf, hlen, hdec⟩ := decodeCommand_ok h
    rw [hf]
    exact commandFrame_wellFormed m ((exists_decodeOperands_iff hlen).1 ⟨i, hdec⟩)
  · intro hwf
    obtain ⟨mode, hallowed, hf⟩ := commandFrame_of_wellFormed hwf
    have hlen := length_of_payloadAllowed hallowed
    obtain ⟨i, hdec⟩ := (exists_decodeOperands_iff hlen).2 hallowed
    exact ⟨idMotor f.arbitrationId, i, by rw [hf, decodeCommand_commandFrame _ hlen, hdec]; simp [commandFrame]⟩

/-! ## Small facts of the encoding -/

/-- Settles O4: each width's signed range is what fits its field. -/
theorem twosComplementRoundTrip : Obligations.TwosComplementRoundTrip :=
  ⟨fun n h0 h1 => sext_tc (by decide) ((fitsS32_iff n).2 ⟨h0, h1⟩),
    fun n h0 h1 => sext_tc (by decide) ((fitsS16_iff n).2 ⟨h0, h1⟩),
    fun n h0 h1 => sext_tc (by decide) ((fitsS8_iff n).2 ⟨h0, h1⟩)⟩

/-- Settles O6: each tag is read off the two definitions. -/
theorem tagMapOfTheSeven : Obligations.TagMapOfTheSeven := fun _ _ _ _ _ =>
  ⟨rfl, rfl, rfl, rfl, rfl, rfl, rfl, rfl⟩

/-- Settles O11: the decoder evaluates on each frame. -/
theorem wordsOfTheWorkedExamples : Obligations.WordsOfTheWorkedExamples := by
  unfold Obligations.WordsOfTheWorkedExamples
  decide

end Sys2Proof.Machine
end

section
/-! One step (R46, R214): what it runs, what it can change, and the invariants of the machine's history. -/

namespace Sys2Proof.Machine

/-! ## What a step runs -/

theorem step_of_idle {s : State} (h : s.requests = []) : step s = .next s := by
  simp only [step, accept, h]

theorem step_of_call {s : State} {i : Instr} {rest : List Request} (h : s.requests = .call i :: rest) :
    step s = exec i { s with requests := rest } := by
  simp only [step, accept, h]

section
variable {s : State} {f : Frame} {rest : List Request} (h : s.requests = .encoded f :: rest)
include h

theorem step_of_encoded {m : MotorId} {i : Instr} (hd : decodeCommand f = .ok (m, i))
    (hm : forThisInstance m s.codec = true) : step s = exec i { s with requests := rest } := by
  simp only [step, accept, h, hd, hm, if_true]

theorem step_of_encoded_other {m : MotorId} {i : Instr} (hd : decodeCommand f = .ok (m, i))
    (hm : forThisInstance m s.codec = false) : step s = .refused (.encodingOfAnotherMotor m) := by
  simp only [step, accept, h, hd, hm, Bool.false_eq_true, if_false]

theorem step_of_encoded_error {e : DecodeError} (hd : decodeCommand f = .error e) :
    step s = .refused (.reservedEncoding e) := by
  simp only [step, accept, h, hd]

end

@[simp] theorem forThisInstance_unbuilt (m : MotorId) : forThisInstance m .unbuilt = true := rfl

@[simp] theorem forThisInstance_built (m m' : MotorId) : forThisInstance m (.built m') = (m == m') := rfl

/-- Settles O15: the step of an empty list is idle. -/
theorem idleStepChangesNothing : Obligations.IdleStepChangesNothing := fun _ h => step_of_idle h

/-- Settles O13: the three forms of request are the three equations of the step. -/
theorem stepRunsThePresentedOperation : Obligations.StepRunsThePresentedOperation := by
  refine ⟨fun s i rest h => step_of_call h, fun s f m i rest h hd hm => ?_, fun s f m m' i rest h hd hm hne => ?_⟩
  · refine step_of_encoded h hd ?_
    rcases hm with hm | hm <;> simp [hm]
  · exact step_of_encoded_other h hd (by simpa [hm] using hne)

/-- Settles O23: a construction is completed by `construct`, which refuses a built instance. -/
theorem builtInstanceIsNotRebuilt : Obligations.BuiltInstanceIsNotRebuilt := by
  intro s m v rest hm h
  rw [step_of_construct h]
  simp only [construct, hm]

/-! ## The word that is placed (log entries 4 and 16) -/

theorem statusRowOnly_of_decodes {f : Frame} {p : MotorId × Instr} (h : decodeCommand f = .ok p) :
    statusRowOnly f = false := by
  simp only [statusRowOnly, h]

theorem exists_error_of_statusRowOnly {f : Frame} (h : statusRowOnly f = true) :
    ∃ e, decodeCommand f = .error e := by
  rcases hd : decodeCommand f with e | p
  · exact ⟨e, rfl⟩
  · rw [statusRowOnly_of_decodes hd] at h
    cases h

theorem decodeTableWord_of_command {nbits w : Nat} {m : MotorId} {i : Instr}
    (h : decodeCommand (frameOfWord nbits w) = .ok (m, i)) : decodeTableWord nbits w = some i := by
  simp only [decodeTableWord, decodeWord, h]

theorem decodeTableWord_of_statusRowOnly {nbits w : Nat} (h : statusRowOnly (frameOfWord nbits w) = true) :
    decodeTableWord nbits w = some (.readStatus none) := by
  obtain ⟨e, he⟩ := exists_error_of_statusRowOnly h
  simp only [decodeTableWord, decodeWord, he, h, if_true]

theorem withFetchWord_of_command (s : State) {nbits w : Nat} (h : statusRowOnly (frameOfWord nbits w) = false) :
    s.withFetchWord nbits w =
      { s with
        codec := .built (idMotor (frameOfWord nbits w).arbitrationId)
        requests := .encoded (frameOfWord nbits w) :: s.requests } := by
  simp only [State.withFetchWord, presentWord, h, Bool.false_eq_true, if_false]

theorem withFetchWord_of_statusRowOnly (s : State) {nbits w : Nat} (h : statusRowOnly (frameOfWord nbits w) = true) :
    s.withFetchWord nbits w =
      { s with
        codec := builtFor (idMotor (frameOfWord nbits w).arbitrationId) s.codec
        rx := .frame (frameOfWord nbits w).payload :: s.rx
        requests := .call (.readStatus none) :: s.requests } := by
  simp only [State.withFetchWord, presentWord, h, if_true]

/-- A frame decodes to its own motor field. -/
theorem idMotor_of_decodes {f : Frame} {m : MotorId} {i : Instr} (h : decodeCommand f = .ok (m, i)) :
    idMotor f.arbitrationId = m := by
  obtain ⟨mode, hf, -, -⟩ := decodeCommand_ok h
  rw [hf, commandFrame, idMotor_arbId]

theorem builtFor_eq (m : MotorId) (c : Codec) :
    ∃ m', builtFor m c = .built m' ∧ (c = .built m' ∨ (c = .unbuilt ∧ m' = m)) := by
  cases c with
  | unbuilt => exact ⟨m, rfl, .inr ⟨rfl, rfl⟩⟩
  | built m' => exact ⟨m', rfl, .inl rfl⟩

/-- Settles O14: a command word is a request given by its frame, on an instance of the frame's motor; a word of
readStatus's row is a call, with the word's payload for the transport to answer. -/
theorem stepRunsThePlacedWord : Obligations.StepRunsThePlacedWord := by
  refine fun s nbits w => ⟨fun m i hd => ⟨decodeTableWord_of_command hd, ?_⟩, fun h =>
    ⟨decodeTableWord_of_statusRowOnly h, ?_⟩⟩
  · rw [withFetchWord_of_command s (statusRowOnly_of_decodes hd), idMotor_of_decodes hd]
    exact step_of_encoded rfl hd (by simp)
  · obtain ⟨m, hbuilt, hm⟩ := builtFor_eq (idMotor (frameOfWord nbits w).arbitrationId) s.codec
    refine ⟨m, hm, ?_⟩
    rw [withFetchWord_of_statusRowOnly s h, hbuilt]
    exact step_of_call rfl

/-! ## Encodings outside the map (R69) -/

theorem idOutside_eq_zero_iff (id : Identifier) : idOutside id = 0 ↔ id.toNat < 2 ^ 29 := by
  rw [idOutside]
  omega

theorem idUpper_eq_zero_iff {id : Identifier} (h : id.toNat < 2 ^ 29) : idUpper id = 0 ↔ id.toNat < 2 ^ 16 := by
  rw [idUpper]
  omega

theorem idTag_toNat_of_lt {id : Identifier} (h : id.toNat < 2 ^ 16) : (idTag id).toNat = id.toNat / 2 ^ 8 := by
  rw [idTag, BitVec.toNat_ofNat]
  omega

theorem modeOfTag_eq_none {t : BitVec 8} (h : 7 ≤ t.toNat) : modeOfTag t = none := by
  unfold modeOfTag
  split
  case h_8 => rfl
  all_goals omega

section
variable {f : Frame}

theorem decodeCommand_standardFormat (h : f.extended = false) : decodeCommand f = .error .standardFormat := by
  simp only [decodeCommand, h, if_true]

variable (hext : f.extended = true)
include hext

theorem decodeCommand_beyondIdentifierField (h : 2 ^ 29 ≤ f.arbitrationId.toNat) :
    decodeCommand f = .error .beyondIdentifierField := by
  have hout : idOutside f.arbitrationId ≠ 0 := fun h0 => by
    have := (idOutside_eq_zero_iff _).1 h0
    omega
  rw [decodeCommand, if_neg (by simp [hext]), if_pos hout]

theorem decodeCommand_upperIdentifierBits (h29 : f.arbitrationId.toNat < 2 ^ 29)
    (h16 : 2 ^ 16 ≤ f.arbitrationId.toNat) : decodeCommand f = .error .upperIdentifierBits := by
  have hupper : idUpper f.arbitrationId ≠ 0 := fun h0 => by
    have := (idUpper_eq_zero_iff h29).1 h0
    omega
  rw [decodeCommand, if_neg (by simp [hext]), if_neg (by simpa using (idOutside_eq_zero_iff _).2 h29), if_pos hupper]

theorem decodeCommand_reservedTag (h16 : f.arbitrationId.toNat < 2 ^ 16) (h : 0x700 ≤ f.arbitrationId.toNat) :
    decodeCommand f = .error (.reservedTag (idTag f.arbitrationId)) := by
  have h29 : f.arbitrationId.toNat < 2 ^ 29 := by omega
  have htag : modeOfTag (idTag f.arbitrationId) = none := modeOfTag_eq_none (by rw [idTag_toNat_of_lt h16]; omega)
  rw [decodeCommand, if_neg (by simp [hext]), if_neg (by simpa using (idOutside_eq_zero_iff _).2 h29),
    if_neg (by simpa using (idUpper_eq_zero_iff h29).2 h16), htag]

/-- An extended frame whose identifier has only a mode's tag and a motor field is that mode's command frame. -/
theorem eq_commandFrame_of_tag {mode : ServoMode} (h16 : f.arbitrationId.toNat < 2 ^ 16)
    (htag : idTag f.arbitrationId = tagOf mode) : f = commandFrame (idMotor f.arbitrationId) mode f.payload := by
  have h29 : f.arbitrationId.toNat < 2 ^ 29 := by omega
  have hid := arbId_of_fields ((idOutside_eq_zero_iff _).2 h29) ((idUpper_eq_zero_iff h29).2 h16)
  rw [commandFrame, ← htag, hid, ← hext]

end

theorem decodeCommand_wrongLength (m : MotorId) {mode : ServoMode} {bs : Payload} (h : bs.length ≠ payloadLength mode) :
    decodeCommand (commandFrame m mode bs) = .error (.wrongLength mode bs.length) := by
  simp [decodeCommand, commandFrame, h]

theorem decodeCommand_reservedOriginByte (m : MotorId) {b : Byte} (h0 : b ≠ 0) (h1 : b ≠ 1) :
    decodeCommand (commandFrame m .setOrigin [b]) = .error (.reservedOriginByte b) := by
  rw [decodeCommand_commandFrame m rfl]
  simp only [decodeOperands, memRead_single, if_neg h0, if_neg h1]

/-- Settles O10: the decoder's error of each kind is the refusal's. -/
theorem reservedEncodingsAreRefused : Obligations.ReservedEncodingsAreRefused := by
  intro s f rest h
  refine ⟨fun hext => ?_, fun hext h29 => ?_, fun hext h29 h16 => ?_, fun hext h16 h7 => ?_,
    fun mode hext h7 htag hlen => ?_, fun b hext h6 h5 hb h0 h1 => ?_⟩ <;>
    refine step_of_encoded_error h ?_
  · exact decodeCommand_standardFormat hext
  · exact decodeCommand_beyondIdentifierField hext h29
  · exact decodeCommand_upperIdentifierBits hext h29 h16
  · exact decodeCommand_reservedTag hext h16 h7
  · rw [eq_commandFrame_of_tag hext (by omega) htag]
    exact decodeCommand_wrongLength _ hlen
  · have h16 : f.arbitrationId.toNat < 2 ^ 16 := by omega
    have htag : idTag f.arbitrationId = tagOf .setOrigin := by
      apply BitVec.eq_of_toNat_eq
      rw [idTag_toNat_of_lt h16, show (tagOf .setOrigin).toNat = 5 from rfl]
      omega
    rw [eq_commandFrame_of_tag hext h16 htag, hb]
    exact decodeCommand_reservedOriginByte _ h0 h1

/-! ## What a step can change -/

/-- Settles O17: every operation completes with one of the transaction's effects. -/
theorem everyOperationCompletes : Obligations.EveryOperationCompletes := fun i s =>
  (exec_effect i s).imp fun _ h => h.1

/-- Settles O20: both pipelines ask first whether the instance is built. -/
theorem unbuiltInstanceRefuses : Obligations.UnbuiltInstanceRefuses := by
  intro i s hs
  refine ⟨refuse s, ?_, rfl⟩
  rcases hp : packOf i with _ | p
  · cases i with
    | readStatus w => exact exec_readStatus_of_unbuilt w hs
    | _ => cases hp
  · rw [exec_of_pack hp]
    simp only [encodeTransaction, hs]

/-- A transaction changes neither the instance nor ARITH nor the caller's list. -/
theorem Effect.frame {s t : State} (h : Effect s t) :
    t.codec = s.codec ∧ t.arith = s.arith ∧ t.requests = s.requests := by
  cases h <;> exact ⟨rfl, rfl, rfl⟩

theorem Effect.sends {s t : State} (h : Effect s t) : t.sends = s.sends ∨ ∃ c, t.sends = s.sends ++ [c] := by
  cases h with
  | reported r => exact .inl rfl
  | sent m mode bs => exact .inr ⟨_, rfl⟩
  | received w m => exact .inl rfl

theorem Effect.receives {s t : State} (h : Effect s t) :
    t.receives = s.receives ∨ ∃ c, t.receives = s.receives ++ [c] := by
  cases h with
  | reported r => exact .inl rfl
  | sent m mode bs => exact .inl rfl
  | received w m => exact .inr ⟨_, rfl⟩

/-- Settles O16: a construction reports one result and calls nothing; an operation has one of the effects. -/
theorem oneResultAndAtMostOneFrame : Obligations.OneResultAndAtMostOneFrame := by
  intro s t hne h
  rcases step_cases h with ⟨hr, -⟩ | ⟨v, rest, hr, -, ⟨-, -, rfl⟩ | ⟨-, rfl⟩⟩ | ⟨r, rest, i, hr, -, heff⟩
  · exact absurd hr hne
  · exact ⟨⟨_, rfl⟩, .inl rfl, .inl rfl, by rw [hr]; rfl, rfl⟩
  · exact ⟨⟨_, rfl⟩, .inl rfl, .inl rfl, by rw [hr]; rfl, rfl⟩
  · obtain ⟨x, hres, -⟩ := heff.results_inRange
    obtain ⟨-, harith, hreq⟩ := heff.frame
    exact ⟨⟨x, hres⟩, heff.sends, heff.receives, by rw [hreq, hr]; rfl, harith⟩

/-- A step hands at most one frame over. -/
theorem step_sends {s t : State} (h : step s = .next t) : t.sends = s.sends ∨ ∃ c, t.sends = s.sends ++ [c] := by
  by_cases hr : s.requests = []
  · obtain rfl := Host.Outcome.next.inj ((step_of_idle hr).symm.trans h)
    exact .inl rfl
  · obtain ⟨-, hsends, -⟩ := oneResultAndAtMostOneFrame s t hr h
    exact hsends

theorem step_sends_prefix {s t : State} (h : step s = .next t) : s.sends <+: t.sends := by
  rcases step_sends h with hs | ⟨c, hs⟩ <;> rw [hs]
  exact List.prefix_append _ _

theorem step_results_prefix {s t : State} (h : step s = .next t) : s.results <+: t.results := by
  by_cases hr : s.requests = []
  · obtain rfl := Host.Outcome.next.inj ((step_of_idle hr).symm.trans h)
    exact List.prefix_rfl
  · obtain ⟨⟨x, hx⟩, -⟩ := oneResultAndAtMostOneFrame s t hr h
    exact hx ▸ List.prefix_append _ _

/-- R213: no step rebuilds a built instance. -/
theorem step_keeps_built {s t : State} {m : MotorId} (hm : s.codec = .built m) (h : step s = .next t) :
    t.codec = .built m := by
  rcases step_cases h with ⟨-, rfl⟩ | ⟨v, rest, -, hc, -⟩ | ⟨r, rest, i, -, -, heff⟩
  · exact hm
  · rw [hm] at hc
    cases hc
  · exact heff.frame.1.trans hm

/-- Settles O22: of what a step can do, only a construction in range changes the instance. -/
theorem onlyConstructionBuilds : Obligations.OnlyConstructionBuilds := by
  intro s t m hs h ht
  rcases step_cases h with ⟨-, rfl⟩ | ⟨v, rest, hr, -, ⟨h0, h255, rfl⟩ | ⟨-, rfl⟩⟩ | ⟨r, rest, i, -, -, heff⟩
  · cases hs.symm.trans ht
  · obtain rfl : BitVec.ofInt 8 v = m := Codec.built.inj ht
    exact ⟨v, rest, hr, h0, h255, toNat_ofInt_motorId h0 h255⟩
  · cases hs.symm.trans ht
  · obtain ⟨hcodec, -⟩ := heff.frame
    cases hs.symm.trans (hcodec.symm.trans ht)

/-! ## Any number of steps -/

/-- A run of one step more is a step and the rest of the run. -/
theorem run_succ {k : Nat} {s t : State} (h : Sys2Proof.core.run (k + 1) s = .next t) :
    ∃ u, step s = .next u ∧ Sys2Proof.core.run k u = .next t := by
  simp only [Host.Core.run] at h
  split at h
  · next u hu => exact ⟨u, hu, h⟩
  · cases h
  · cases h

/-- What holds of no step at all, and of a step followed by more of them, holds over any run. -/
theorem run_induction {R : State → State → Prop} (hrefl : ∀ s, R s s)
    (hstep : ∀ {s u t}, step s = .next u → R u t → R s t) {k : Nat} {s t : State}
    (h : Sys2Proof.core.run k s = .next t) : R s t := by
  induction k generalizing s with
  | zero =>
    obtain rfl := Host.Outcome.next.inj h
    exact hrefl _
  | succ k ih =>
    obtain ⟨u, hu, hrun⟩ := run_succ h
    exact hstep hu (ih hrun)

/-- Settles O21: each step keeps a built instance. -/
theorem motorIdIsImmutable : Obligations.MotorIdIsImmutable := fun _ _ _ m hm h =>
  run_induction (R := fun s t => s.codec = .built m → t.codec = .built m) (fun _ hm => hm)
    (fun hu ih hm => ih (step_keeps_built hm hu)) h hm

/-- Settles O53: each step extends both lists. -/
theorem runOnlyExtendsTheObservation : Obligations.RunOnlyExtendsTheObservation := fun _ _ _ h =>
  run_induction (R := fun s t => s.sends <+: t.sends ∧ s.results <+: t.results)
    (fun _ => ⟨List.prefix_rfl, List.prefix_rfl⟩)
    (fun hu ⟨hsends, hresults⟩ => ⟨(step_sends_prefix hu).trans hsends, (step_results_prefix hu).trans hresults⟩) h

/-! ## The invariants of the history -/

/-- Settles O18: reset is a literal. -/
theorem resetIsUnbuilt : Obligations.ResetIsUnbuilt := ⟨rfl, rfl, rfl, rfl, rfl⟩

/-- Settles O49: nothing has been sent or reported. -/
theorem resetHasTheInvariant : Obligations.ResetHasTheInvariant :=
  ⟨fun _ h => absurd h List.not_mem_nil, rfl, fun _ _ h => absurd h List.not_mem_nil⟩

/-- R106: an operation's transaction hands over nothing, or a frame of the map with MOTOR_ID. -/
theorem Effect.framesLegal {s t : State} (heff : Effect s t) (h : FramesLegal s) : FramesLegal t := by
  cases heff with
  | reported r => exact h
  | received w m => exact h
  | sent m mode bs hm hbs =>
    intro c hc
    rcases List.mem_append.1 hc with hc | hc
    · exact h c hc
    · obtain rfl := List.mem_singleton.1 hc
      exact ⟨commandFrame_wellFormed m hbs, hm.trans (by rw [commandFrame, idMotor_arbId])⟩

/-- Settles O50: a construction finds an instance that has sent nothing, and an operation's effect keeps the rest. -/
theorem stepKeepsFramesLegal : Obligations.StepKeepsFramesLegal := by
  intro s t hs h
  rcases step_cases h with ⟨-, rfl⟩ | ⟨v, rest, -, hc, ⟨-, -, rfl⟩ | ⟨-, rfl⟩⟩ | ⟨r, rest, i, -, -, heff⟩
  · exact hs
  · intro c hmem
    obtain ⟨-, hbuilt⟩ := hs c hmem
    cases hc.symm.trans hbuilt
  · exact hs
  · exact heff.framesLegal hs

theorem okFrames_report_ok (f : Frame) (s : State) : okFrames (report (.ok f) s) = okFrames s ++ [f] := by
  simp [okFrames]

theorem okFrames_report_of_ne {r : Result} (h : ∀ f, r ≠ .ok f) (s : State) : okFrames (report r s) = okFrames s := by
  cases r with
  | ok f => exact absurd rfl (h f)
  | _ => simp [okFrames]

theorem acceptedFrames_emit (f : Frame) (s : State) :
    acceptedFrames (emit f s) = if sendAnswer s = .accepted then acceptedFrames s ++ [f] else acceptedFrames s := by
  cases h : sendAnswer s <;> simp [acceptedFrames, h]

/-- R105: what `send` answers decides alike whether the frame is accepted and whether it is the transaction's `Ok`. -/
theorem historyAgrees_transmit (f : Frame) {s : State} (h : HistoryAgrees s) : HistoryAgrees (transmit f s) := by
  change acceptedFrames (emit f s) = okFrames (report (sendResult f (sendAnswer s)) s)
  rw [acceptedFrames_emit, h]
  rcases sendAnswer s with _ | ⟨e, reached⟩
  · rw [if_pos rfl, sendResult, okFrames_report_ok]
  · rw [if_neg (by simp), sendResult, okFrames_report_of_ne (by simp)]

theorem decodeAnswer_ne_ok (a : Arith) (x : ReceiveAnswer) (f : Frame) : decodeAnswer a x ≠ .ok f := by
  rcases decodeAnswer_cases a x with h | ⟨e, -, h⟩ | ⟨bs, -, -, h⟩ <;> simp [h]

/-- A result that is no `Ok` keeps the agreement. -/
theorem historyAgrees_report {r : Result} (hr : ∀ f, r ≠ .ok f) {s : State} (h : HistoryAgrees s) :
    HistoryAgrees (report r s) := by
  rw [HistoryAgrees, okFrames_report_of_ne hr]
  exact h

theorem Effect.historyAgrees {s t : State} (heff : Effect s t) (h : HistoryAgrees s) : HistoryAgrees t := by
  cases heff with
  | reported r hok => exact historyAgrees_report hok h
  | sent m mode bs => exact historyAgrees_transmit _ h
  | received w m => exact historyAgrees_report (s := receive w s) (decodeAnswer_ne_ok _ _) h

/-- Settles O51: a construction reports no `Ok`, and an operation's effect keeps the agreement. -/
theorem stepKeepsHistoryAgreement : Obligations.StepKeepsHistoryAgreement := by
  intro s t hs h
  rcases step_cases h with ⟨-, rfl⟩ | ⟨v, rest, -, -, ⟨-, -, rfl⟩ | ⟨-, rfl⟩⟩ | ⟨r, rest, i, -, -, heff⟩
  · exact hs
  · exact historyAgrees_report (by simp) hs
  · exact historyAgrees_report (by simp) hs
  · exact heff.historyAgrees hs

end Sys2Proof.Machine
end

section
/-! Several instances (R33, R46, R48): a step of one depends on that instance alone. -/

namespace Sys2Proof.Machine

/-- A step hands at most one frame over, so at most one joins the common record. -/
theorem framesSince_length_le {s t : State} (h : step s = .next t) : (framesSince s t).length ≤ 1 := by
  rcases step_sends h with hs | ⟨c, hs⟩ <;> simp [framesSince, hs]

/-- The system with instance `k` replaced and its frames `fs` appended to the common record. -/
def System.advance (y : System) (k : Nat) (t : State) (fs : List Frame) : System :=
  { blocks := y.blocks.set k t, wire := y.wire ++ fs.map fun f => (k, f) }

@[simp] theorem advance_blocks (y : System) (k : Nat) (t : State) (fs : List Frame) :
    (y.advance k t fs).blocks = y.blocks.set k t := rfl

@[simp] theorem advance_wire (y : System) (k : Nat) (t : State) (fs : List Frame) :
    (y.advance k t fs).wire = y.wire ++ fs.map fun f => (k, f) := rfl

/-- R33: a completed step of instance `k` replaces that instance and appends its frames to the record, and does the same
in every system with the same instance at `k`. -/
theorem stepBlock_local {k : Nat} {y y' : System} (h : stepBlock k y = .next y') :
    ∃ (t : State) (fs : List Frame), fs.length ≤ 1 ∧ y' = y.advance k t fs ∧
      ∀ z : System, z.blocks[k]? = y.blocks[k]? → stepBlock k z = .next (z.advance k t fs) := by
  suffices hlocal : ∃ (t : State) (fs : List Frame), fs.length ≤ 1 ∧
      ∀ z : System, z.blocks[k]? = y.blocks[k]? → stepBlock k z = .next (z.advance k t fs) by
    obtain ⟨t, fs, hfs, hz⟩ := hlocal
    exact ⟨t, fs, hfs, Host.Outcome.next.inj (h.symm.trans (hz y rfl)), hz⟩
  rcases hk : y.blocks[k]? with _ | s
  · refine ⟨State.reset, [], Nat.zero_le _, fun z hz => ?_⟩
    have hset : z.blocks.set k State.reset = z.blocks := List.set_eq_of_length_le (List.getElem?_eq_none_iff.1 hz)
    simp [stepBlock, System.advance, hz, hset]
  · rw [stepBlock, hk] at h
    rcases hs : step s with t | e | r
    · exact ⟨t, framesSince s t, framesSince_length_le hs, fun z hz => by
        simp only [stepBlock, System.advance, hz, hs]⟩
    · simp [hs] at h
    · simp [hs] at h

/-- Settles O54: the step replaces the one instance. -/
theorem instancesAreIndependent : Obligations.InstancesAreIndependent := by
  intro k y y' h j hj
  obtain ⟨t, fs, -, rfl, -⟩ := stepBlock_local h
  exact List.getElem?_set_ne hj.symm

/-- Settles O55: the step's frames are none or one. -/
theorem transactionsAreAtomic : Obligations.TransactionsAreAtomic := by
  intro k y y' h
  obtain ⟨t, fs, hfs, rfl, -⟩ := stepBlock_local h
  match fs, hfs with
  | [], _ => exact .inl (List.append_nil _)
  | [f], _ => exact .inr ⟨f, rfl⟩

/-- No frame of one instance's is another's. -/
theorem filter_frames_of_ne {k j : Nat} (h : k ≠ j) (fs : List Frame) :
    (fs.map fun f => (k, f)).filter (fun e => e.1 == j) = [] := by
  simp [List.filter_eq_nil_iff, h]

/-- Settles O56: each step depends on its own instance alone, which the other leaves as it was, so both orders replace
the same two instances; the frames are swapped, and at most one of the two belongs to any one instance. -/
theorem interleavingsReachTheSameInstances : Obligations.InterleavingsReachTheSameInstances := by
  intro k l y y1 y2 hkl h1 h2
  obtain ⟨s, fs, -, rfl, hk⟩ := stepBlock_local h1
  obtain ⟨t, gs, -, rfl, hl⟩ := stepBlock_local h2
  refine ⟨_, _, hl y (List.getElem?_set_ne hkl).symm, hk _ (List.getElem?_set_ne hkl.symm),
    List.set_comm _ _ hkl.symm, ?_, fun j => ?_⟩
  · simp only [advance_wire, List.append_assoc]
    exact List.Perm.append_left _ List.perm_append_comm
  · by_cases hj : k = j
    · simp only [advance_wire, List.filter_append, filter_frames_of_ne (hj ▸ hkl.symm), List.append_nil]
    · simp only [advance_wire, List.filter_append, filter_frames_of_ne hj, List.append_nil]

end Sys2Proof.Machine
end

section
/-! Numbers (R10, R12): truncation, the binary64 product and the constants, the bound checks and `conv32`. -/

namespace Sys2Proof.Machine

/-- R10: of a number that is not negative, `trunc` is the integer part. -/
theorem trunc_spec_of_nonneg {q : Rat} (h : 0 ≤ q) : 0 ≤ trunc q ∧ (trunc q : Rat) ≤ q ∧ q < trunc q + 1 := by
  rw [trunc_of_nonneg h]
  exact ⟨Int.floor_nonneg.2 h, Int.floor_le q, Int.lt_floor_add_one q⟩

/-- Settles O24: `trunc` is the integer part of a number that is not negative, and is odd. -/
theorem truncationIsTowardZero : Obligations.TruncationIsTowardZero := by
  intro q
  rcases le_total 0 q with h | h
  · obtain ⟨h0, hle, hlt⟩ := trunc_spec_of_nonneg h
    rw [abs_of_nonneg h, abs_of_nonneg (Int.cast_nonneg h0)]
    refine ⟨hle, hlt, fun _ => h0, fun hq => ?_⟩
    have hcast : (trunc q : Rat) ≤ 0 := hle.trans hq
    exact_mod_cast hcast
  · obtain ⟨h0, hle, hlt⟩ := trunc_spec_of_nonneg (neg_nonneg.2 h)
    rw [trunc_neg, Int.cast_neg] at hle hlt
    rw [trunc_neg, neg_nonneg] at h0
    rw [abs_of_nonpos h, abs_of_nonpos (Int.cast_nonpos.2 h0)]
    refine ⟨hle, hlt, fun hq => ?_, fun _ => h0⟩
    have hcast : (0 : Rat) ≤ trunc q := by linarith
    exact_mod_cast hcast

/-- The sign of a nonzero signed magnitude. -/
theorem Float64.decide_signum_mul_neg (neg : Bool) {x : Rat} (h : 0 < x) : decide (signum neg * x < 0) = neg := by
  cases neg
  · simpa [signum] using h.le
  · simpa [signum] using h

/-- Settles O25: the product is the rounding of the exact product's sign and magnitude. -/
theorem productIsCorrectlyRounded : Obligations.ProductIsCorrectlyRounded := by
  intro a b x y ha hb
  obtain ⟨neg, m, e, hmul, hz⟩ := Float64.mul_finite ha hb
  have habs : |x * y| = m * 2 ^ e := by
    rw [hz, Float64.abs_signum_mul, abs_of_nonneg (by positivity)]
  obtain ⟨hfinite, hinfinite⟩ := Float64.round_spec neg m e
  rw [hmul, habs, hz]
  refine ⟨hfinite, fun hbig => ?_⟩
  have hpos : (0 : Rat) < m * 2 ^ e := lt_of_lt_of_le (mul_pos (by norm_num) (by positivity)) hbig
  rw [hinfinite hbig, Float64.decide_signum_mul_neg neg hpos]

/-- A normal positive pattern within half a unit of `x` is a nearest finite value to `x`, where `x` is not below the
pattern's binade. -/
theorem Float64.nearest_of_units {w : Binary64} {u : Nat} {q : Int} {x : Rat} (hw : value w = .fin (u * 2 ^ q))
    (hu : |u * 2 ^ q - x| ≤ (2 : Rat) ^ q / 2) (hx : (2 : Rat) ^ (52 + q) ≤ x) :
    ∃ p, value w = .fin p ∧ ∀ w' r, value w' = .fin r → |p - x| ≤ |r - x| :=
  ⟨_, hw, fun _ _ hr => by simpa using (nearest_finite (u := u) (by simpa using hu) (.inr hx) hr).1⟩

/-- Settles O26: each constant lies within half a unit of its decimal. -/
theorem decimalConstantsAreNearest : Obligations.DecimalConstantsAreNearest := by
  constructor
  · refine Float64.nearest_of_units (u := 0x1999999999999A) (q := -56) (by decide +kernel) ?_ ?_
    · rw [abs_le]; norm_num
    · norm_num
  · refine Float64.nearest_of_units (u := 0x147AE147AE147B) (q := -59) (by decide +kernel) ?_ ?_
    · rw [abs_le]; norm_num
    · norm_num

/-- Settles O28: the exact domain multiplies the rationals. -/
theorem exactProductIsExact : Obligations.ExactProductIsExact :=
  fun q c => congrArg Number.exact (ratMul_eq q c.exact)

/-- Settles O29: the product by 1 is the number itself. -/
theorem productByOneIsTheValue : Obligations.ProductByOneIsTheValue := by
  intro x q hx
  obtain ⟨-, hp⟩ := scaledTo_one hx
  exact hp

/-- Settles O30: the two clauses are the two ends of the conversion. -/
theorem conv32TruncatesOrRaises : Obligations.Conv32TruncatesOrRaises :=
  fun _ _ name => ⟨fun _ hp hlo hhi => conv32_ok name hp hlo hhi, conv32_error name⟩

/-- Settles O32: the two checks by their laws, and `-0.0` by evaluation. -/
theorem boundChecksAreInclusive : Obligations.BoundChecksAreInclusive :=
  ⟨within_iff, fun x b => atLeast_iff b x, by decide⟩

end Sys2Proof.Machine
end

section
/-! What an encoder operation emits and which errors an operation raises (R106, R180). -/

namespace Sys2Proof.Machine

/-! ## All or nothing (R106) -/

/-- Settles O40: of the pipeline's three ends, a built instance leaves the emission and the error. -/
theorem encoderIsAllOrNothing : Obligations.EncoderIsAllOrNothing := by
  intro i mode s m t hmode hm h
  obtain ⟨p, hp⟩ := packOf_of_mode hmode
  rw [exec_of_pack hp] at h
  rcases encodeTransaction_eq p s with ⟨hc, -⟩ | ⟨m', e, -, -, hend⟩ | ⟨m', mode', bs, hm', rfl, hend⟩
  · cases hm.symm.trans hc
  · obtain rfl := Host.Outcome.next.inj (hend.symm.trans h)
    exact .inr ⟨e, rfl⟩
  · obtain rfl := Host.Outcome.next.inj (hend.symm.trans h)
    obtain ⟨hmode', hbs⟩ := packOf_ok hp
    obtain rfl : mode = mode' := Option.some.inj (hmode.symm.trans hmode')
    obtain rfl : m = m' := Codec.built.inj (hm.symm.trans hm')
    exact .inl ⟨bs, hbs, emits_transmit s _⟩

/-! ## The operations that a frame carries whole -/

/-- A value that is a field converts to the field's bytes. -/
theorem conv32_of_encodeField32 {s : Nat} (hs : s ≠ 0) {x : Number} {fld : Payload} (name : Param)
    (h : encodeField32 s x = some fld) : ∃ n, conv32 x s name = .ok n ∧ p4 n = fld := by
  obtain ⟨n, hn, rfl, rfl⟩ := encodeField32_some hs h
  have hs' : (s : Rat) ≠ 0 := by exact_mod_cast hs
  have hprod : ScaledTo (.exact (mkRat n s)) s (n : Rat) := by
    refine ⟨⟨_, rfl⟩, ?_⟩
    rw [numeric_fmul_exact, Rat.mkRat_eq_div]
    field_simp
  refine ⟨n, ?_, rfl⟩
  rw [conv32_of_scaledTo name hprod, trunc_intCast, if_pos hn]

theorem conv16_of_encodeField16 {k : Int} {fld : Payload} (name : Param) (h : encodeField16 k = some fld) :
    ∃ n, conv16 k name = .ok n ∧ beBytes16 (tc 16 n) = fld := by
  obtain ⟨n, hn, rfl, rfl⟩ := encodeField16_some h
  have hdiv : tdiv (pvDiv * n) pvDiv = n := Int.mul_tdiv_cancel_left n (by decide)
  exact ⟨n, by rw [conv16, hdiv, if_pos hn], rfl⟩

/-- An operation with a payload of its own packs to that payload, where its bound check passes. -/
theorem packOf_of_encodeOperands {i : Instr} {mode : ServoMode} {bs : Payload} (hmode : i.mode? = some mode)
    (h : encodeOperands i = some bs) (hb : InBounds i) : packOf i = some (.ok (mode, bs)) := by
  cases i <;> cases hmode
  case setDutyCycle x =>
    obtain ⟨n, hn, rfl⟩ := conv32_of_encodeField32 (by decide) .duty h
    exact congrArg some (packDutyCycle_ok hb hn)
  case setCurrent x =>
    obtain ⟨n, hn, rfl⟩ := conv32_of_encodeField32 (by decide) .current h
    exact congrArg some (packCurrent_ok hn)
  case setBrakeCurrent x =>
    obtain ⟨n, hn, rfl⟩ := conv32_of_encodeField32 (by decide) .current h
    exact congrArg some (packBrakeCurrent_ok hb hn)
  case setVelocity x =>
    obtain ⟨n, hn, rfl⟩ := conv32_of_encodeField32 (by decide) .rpm h
    exact congrArg some (packVelocity_ok hn)
  case setPosition x =>
    obtain ⟨n, hn, rfl⟩ := conv32_of_encodeField32 (by decide) .degrees h
    exact congrArg some (packPosition_ok hb hn)
  case setOrigin b =>
    obtain rfl := Option.some.inj h
    rfl
  case setPositionVelocity x rpm acc =>
    obtain ⟨_, _, _, hpos, hspd, ha, rfl⟩ := encodeOperands_setPositionVelocity_eq_some_iff.1 h
    obtain ⟨n, hn, rfl⟩ := conv32_of_encodeField32 (by decide) .degrees hpos
    obtain ⟨spd, hrpm, rfl⟩ := conv16_of_encodeField16 .rpm hspd
    obtain ⟨a, hacc, rfl⟩ := conv16_of_encodeField16 .acceleration ha
    exact congrArg some (packPositionVelocity_ok hb hn hrpm hacc)

/-- Settles O43: the operation packs to the payload of its encoding. -/
theorem wellFormedOperationEmitsItsEncoding : Obligations.WellFormedOperationEmitsItsEncoding := by
  intro s m i hm hwf hb
  obtain ⟨mode, bs, hmode, hbs, hf⟩ := exists_encode_of_wellFormed m hwf
  obtain ⟨t, ht, hemit⟩ := exec_emits i (packOf_of_encodeOperands hmode hbs hb) rfl hm
  exact ⟨_, t, hf, ht, hemit⟩

/-! ## The errors of each operation (R180) -/

theorem eq_unrepresentable_of_conv32 {x : Number} {c : Nat} {name : Param} {e : Error}
    (h : conv32 x c name = .error e) : e = .unrepresentable name (.real x) := by
  by_cases hp : ∃ p, ScaledTo x c p ∧ -2147483649 < p ∧ p < 2147483648
  · obtain ⟨p, hp, hlo, hhi⟩ := hp
    cases (conv32_ok name hp hlo hhi).symm.trans h
  · exact (Except.error.inj ((conv32_error name hp).symm.trans h)).symm

theorem eq_unrepresentable_of_conv16 {k : Int} {name : Param} {e : Error} (h : conv16 k name = .error e) :
    e = .unrepresentable name (.int k) := by
  rw [conv16] at h
  split at h <;> cases h
  rfl

/-- What one operation's `pack` may raise: OutOfRange where it checks a bound, Unrepresentable where a conversion of its
can fail. -/
inductive Raises : Instr → Error → Prop where
  | dutyOutOfRange (x : Number) (n : Param) (v : ParamValue) : Raises (.setDutyCycle x) (.outOfRange n v)
  | currentUnrepresentable (x : Number) (n : Param) (v : ParamValue) : Raises (.setCurrent x) (.unrepresentable n v)
  | brakeOutOfRange (x : Number) (n : Param) (v : ParamValue) : Raises (.setBrakeCurrent x) (.outOfRange n v)
  | brakeUnrepresentable (x : Number) (n : Param) (v : ParamValue) : Raises (.setBrakeCurrent x) (.unrepresentable n v)
  | velocityUnrepresentable (x : Number) (n : Param) (v : ParamValue) : Raises (.setVelocity x) (.unrepresentable n v)
  | positionOutOfRange (x : Number) (n : Param) (v : ParamValue) : Raises (.setPosition x) (.outOfRange n v)
  | positionVelocityOutOfRange (x : Number) (rpm acc : Int) (n : Param) (v : ParamValue) :
      Raises (.setPositionVelocity x rpm acc) (.outOfRange n v)
  | positionVelocityUnrepresentable (x : Number) (rpm acc : Int) (n : Param) (v : ParamValue) :
      Raises (.setPositionVelocity x rpm acc) (.unrepresentable n v)

theorem raises_of_packDutyCycle {x : Number} {e : Error} (h : packDutyCycle x = .error e) :
    Raises (.setDutyCycle x) e := by
  by_cases hb : within x dutyMax = true
  · obtain ⟨q, hx, hlo, hhi⟩ := (within_dutyMax_iff x).1 hb
    obtain ⟨p, -, -, hn⟩ := conv32_of_between (b := 1) (c := dutyScale) (B := 100000) .duty hx
      (by exact_mod_cast hlo) (by exact_mod_cast hhi) (by decide) rfl (by decide)
    cases (packDutyCycle_ok hb hn).symm.trans h
  · obtain rfl := Except.error.inj ((packDutyCycle_outOfRange hb).symm.trans h)
    exact .dutyOutOfRange ..

theorem raises_of_packCurrent {x : Number} {e : Error} (h : packCurrent x = .error e) : Raises (.setCurrent x) e := by
  rcases hn : conv32 x currentScale .current with e' | n
  · obtain rfl := Except.error.inj ((packCurrent_error hn).symm.trans h)
    exact eq_unrepresentable_of_conv32 hn ▸ .currentUnrepresentable ..
  · cases (packCurrent_ok hn).symm.trans h

theorem raises_of_packBrakeCurrent {x : Number} {e : Error} (h : packBrakeCurrent x = .error e) :
    Raises (.setBrakeCurrent x) e := by
  by_cases hb : atLeast 0 x = true
  · rcases hn : conv32 x currentScale .current with e' | n
    · obtain rfl := Except.error.inj ((packBrakeCurrent_error hb hn).symm.trans h)
      exact eq_unrepresentable_of_conv32 hn ▸ .brakeUnrepresentable ..
    · cases (packBrakeCurrent_ok hb hn).symm.trans h
  · obtain rfl := Except.error.inj ((packBrakeCurrent_outOfRange hb).symm.trans h)
    exact .brakeOutOfRange ..

theorem raises_of_packVelocity {x : Number} {e : Error} (h : packVelocity x = .error e) :
    Raises (.setVelocity x) e := by
  rcases hn : conv32 x velocityScale .rpm with e' | n
  · obtain rfl := Except.error.inj ((packVelocity_error hn).symm.trans h)
    exact eq_unrepresentable_of_conv32 hn ▸ .velocityUnrepresentable ..
  · cases (packVelocity_ok hn).symm.trans h

/-- R114, R116: degrees that pass the bound check convert. -/
theorem conv32_degrees_of_within {x : Number} (hb : within x posMax = true) :
    ∃ n, conv32 x posScale .degrees = .ok n := by
  obtain ⟨q, hx, hlo, hhi⟩ := (within_posMax_iff x).1 hb
  obtain ⟨p, -, -, hn⟩ := conv32_degrees hx hlo hhi
  exact ⟨_, hn⟩

theorem raises_of_packPosition {x : Number} {e : Error} (h : packPosition x = .error e) :
    Raises (.setPosition x) e := by
  by_cases hb : within x posMax = true
  · obtain ⟨n, hn⟩ := conv32_degrees_of_within hb
    cases (packPosition_ok hb hn).symm.trans h
  · obtain rfl := Except.error.inj ((packPosition_outOfRange hb).symm.trans h)
    exact .positionOutOfRange ..

theorem raises_of_packPositionVelocity {x : Number} {rpm acc : Int} {e : Error}
    (h : packPositionVelocity x rpm acc = .error e) : Raises (.setPositionVelocity x rpm acc) e := by
  by_cases hb : within x posMax = true
  · obtain ⟨n, hn⟩ := conv32_degrees_of_within hb
    rcases hrpm : conv16 rpm .rpm with e' | spd
    · obtain rfl := Except.error.inj ((packPositionVelocity_rpm_error hb hn hrpm).symm.trans h)
      exact eq_unrepresentable_of_conv16 hrpm ▸ .positionVelocityUnrepresentable ..
    rcases hacc : conv16 acc .acceleration with e' | a
    · obtain rfl := Except.error.inj ((packPositionVelocity_acceleration_error hb hn hrpm hacc).symm.trans h)
      exact eq_unrepresentable_of_conv16 hacc ▸ .positionVelocityUnrepresentable ..
    · cases (packPositionVelocity_ok hb hn hrpm hacc).symm.trans h
  · obtain rfl := Except.error.inj ((packPositionVelocity_outOfRange hb).symm.trans h)
    exact .positionVelocityOutOfRange ..

theorem raises_of_packOf {i : Instr} {e : Error} (h : packOf i = some (.error e)) : Raises i e := by
  cases i with
  | setDutyCycle x => exact raises_of_packDutyCycle (Option.some.inj h)
  | setCurrent x => exact raises_of_packCurrent (Option.some.inj h)
  | setBrakeCurrent x => exact raises_of_packBrakeCurrent (Option.some.inj h)
  | setVelocity x => exact raises_of_packVelocity (Option.some.inj h)
  | setPosition x => exact raises_of_packPosition (Option.some.inj h)
  | setOrigin b => cases h
  | setPositionVelocity x rpm acc => exact raises_of_packPositionVelocity (Option.some.inj h)
  | readStatus w => cases h

theorem sendResult_eq_err {f : Frame} {a : SendAnswer} {e : Error} (h : sendResult f a = .err e) :
    ∃ e', e = .transportError e' := by
  rcases a with _ | ⟨e', reached⟩ <;> cases h
  exact ⟨e', rfl⟩

/-- R180: an error reported is one that `pack` raises, or the transport's. -/
theorem exec_error {i : Instr} {s t : State} {e : Error} (h : exec i s = .next t)
    (he : t.results = s.results ++ [.err e]) : Raises i e ∨ ∃ e', e = .transportError e' := by
  rcases hp : packOf i with _ | p
  · cases i with
    | readStatus w =>
      obtain ⟨-, e', -, -, rfl⟩ := (decodeNeverRaises s t w e h).1 he
      exact .inr ⟨e', rfl⟩
    | _ => cases hp
  rw [exec_of_pack hp] at h
  rcases encodeTransaction_eq p s with ⟨-, hend⟩ | ⟨m, e', -, rfl, hend⟩ | ⟨m, mode, bs, -, -, hend⟩ <;>
    obtain rfl := Host.Outcome.next.inj (hend.symm.trans h)
  · simp [refuse] at he
  · obtain rfl : e' = e := by simpa [raise] using he
    exact .inl (raises_of_packOf hp)
  · exact .inr (sendResult_eq_err (by simpa using he))

/-- Settles O41: the table is that of `Raises`, with the transport's errors beside it. -/
theorem errorsAreThoseOfTheTable : Obligations.ErrorsAreThoseOfTheTable := by
  intro i s t e h he
  rcases exec_error h he with hraises | ⟨e', rfl⟩
  · cases hraises <;> exact ⟨rfl, by simp⟩
  · rfl

end Sys2Proof.Machine
end
